-- ==== Sys2Proof/Word.lean ====
section
/-! DEFINITION. The word type of the abhiraj-sac/mips core (spec/00_scope.md R6, R9). -/

namespace Sys2Proof

/-- `Word32`: a register value, a memory value or an instruction word (R9). Its order and
equality are those of the unsigned integer `toNat`. -/
abbrev Word := BitVec 32

/-- A register index, the value of a 5-bit field (R20, R73, R74). -/
abbrev Reg := BitVec 5

end Sys2Proof
end

