-- ==== Sys2Proof/Syntax.lean ====
section
/-! DEFINITION. The decoded instructions (spec/30_encoding.md R70 to R80): one constructor of `Instr`
per row of spec/opcode_table.json. -/

namespace Sys2Proof

/-- The three instruction formats (R70, R72). -/
inductive Format where
  | register
  | immediate
  | jump
deriving DecidableEq, Repr

/-- A decoded instruction, with every field of its format whether or not the operation uses it (R81).
Register format carries `rs rt rd shamt` (R73); immediate format `rs rt` and the sign-extended
immediate as an integer (R74); jump format the unsigned 26-bit `addr` (R75). An unknown form carries
its raw code: the funct (register format) or the opcode (immediate format) (R79). -/
inductive Instr where
  | add (rs rt rd shamt : Reg)
  | sub (rs rt rd shamt : Reg)
  | and (rs rt rd shamt : Reg)
  | or (rs rt rd shamt : Reg)
  | slt (rs rt rd shamt : Reg)
  | unknownFunct (rs rt rd shamt : Reg) (funct : BitVec 6)
  | addi (rs rt : Reg) (imm : Int)
  | lw (rs rt : Reg) (imm : Int)
  | sw (rs rt : Reg) (imm : Int)
  | beq (rs rt : Reg) (imm : Int)
  | bne (rs rt : Reg) (imm : Int)
  | unknownOp (op : BitVec 6) (rs rt : Reg) (imm : Int)
  | j (addr : BitVec 26)
deriving DecidableEq, Repr

/-- What the decoder can answer. With the one-entry jump set of this hardware every word gives
`instr` (R78, R80); the two other answers are kept because the spec says a model keeps their arms
(R111, R181, spec/92_eei_decisions.md D18). -/
inductive Decoded where
  /-- One of the thirteen decoded forms of R2. -/
  | instr (i : Instr)
  /-- A jump-format word whose opcode has no jump mnemonic, the J record with mnemonic
  `unknown(op)` of R80. -/
  | unknownJump (op : BitVec 6) (addr : BitVec 26)
  /-- A decoded value of no known format (R111). -/
  | unknownType
deriving DecidableEq, Repr

/-- The format of a decoded instruction (R80). -/
def Instr.format : Instr → Format
  | .add _ _ _ _ => .register
  | .sub _ _ _ _ => .register
  | .and _ _ _ _ => .register
  | .or _ _ _ _ => .register
  | .slt _ _ _ _ => .register
  | .unknownFunct _ _ _ _ _ => .register
  | .addi _ _ _ => .immediate
  | .lw _ _ _ => .immediate
  | .sw _ _ _ => .immediate
  | .beq _ _ _ => .immediate
  | .bne _ _ _ => .immediate
  | .unknownOp _ _ _ _ => .immediate
  | .j _ => .jump

/-- The row of spec/opcode_table.json an instruction belongs to, by that row's "mnemonic". -/
def Instr.mnemonic : Instr → String
  | .add _ _ _ _ => "add"
  | .sub _ _ _ _ => "sub"
  | .and _ _ _ _ => "and"
  | .or _ _ _ _ => "or"
  | .slt _ _ _ _ => "slt"
  | .unknownFunct _ _ _ _ _ => "unknown(funct)"
  | .addi _ _ _ => "addi"
  | .lw _ _ _ => "lw"
  | .sw _ _ _ => "sw"
  | .beq _ _ _ => "beq"
  | .bne _ _ _ => "bne"
  | .unknownOp _ _ _ _ => "unknown(op)"
  | .j _ => "j"

end Sys2Proof
end

