-- ==== Sys2Proof/Decode.lean ====
section
/-! DEFINITION. The decoder (spec/30_encoding.md R71 to R80), the encoder (R82) and the opcode table's
rows. Decoding is total: every word has an answer and none is refused (R80, R84). A word is held whole
and never as bytes (spec/20_memory.md R54), so the decoder reads a `Word`. -/

namespace Sys2Proof

/-! ### Field extraction (R71, R73 to R75) -/

def fieldOp (w : Word) : BitVec 6 := w.extractLsb' 26 6
def fieldRs (w : Word) : Reg := w.extractLsb' 21 5
def fieldRt (w : Word) : Reg := w.extractLsb' 16 5
def fieldRd (w : Word) : Reg := w.extractLsb' 11 5
def fieldShamt (w : Word) : Reg := w.extractLsb' 6 5
def fieldFunct (w : Word) : BitVec 6 := w.extractLsb' 0 6
def fieldImm (w : Word) : BitVec 16 := w.extractLsb' 0 16
def fieldAddr (w : Word) : BitVec 26 := w.extractLsb' 0 26

/-- `sext_16` (spec/00_scope.md R10): "if bit 15 is set, subtract 65536". -/
def sext16 (v : BitVec 16) : Int :=
  if v.getLsbD 15 then (v.toNat : Int) - 65536 else (v.toNat : Int)

/-! ### The code tables (R76 to R78). PRESUMED: the values are MIPS I's (D1); log entry 9. -/

def functAdd : BitVec 6 := 0x20#6
def functSub : BitVec 6 := 0x22#6
def functAnd : BitVec 6 := 0x24#6
def functOr : BitVec 6 := 0x25#6
def functSlt : BitVec 6 := 0x2A#6

def opAddi : BitVec 6 := 0x08#6
def opLw : BitVec 6 := 0x23#6
def opSw : BitVec 6 := 0x2B#6
def opBeq : BitVec 6 := 0x04#6
def opBne : BitVec 6 := 0x05#6
def opJ : BitVec 6 := 0x02#6

/-- `JSET`, the jump-opcode set: "currently one entry, unconditional jump" (R72). -/
def jumpSet : List (BitVec 6) := [opJ]

/-- The five function codes of the register-format table (R76). -/
def knownFuncts : List (BitVec 6) := [functAdd, functSub, functAnd, functOr, functSlt]

/-- The five opcodes of the immediate-format table (R77). -/
def knownOps : List (BitVec 6) := [opAddi, opLw, opSw, opBeq, opBne]

/-- Format classification, in the order of R72. -/
def formatOf (op : BitVec 6) : Format :=
  if op = 0 then .register else if op ∈ jumpSet then .jump else .immediate

/-- The register-format instruction with function code `funct` (R76, R79). -/
def registerInstr (rs rt rd shamt : Reg) (funct : BitVec 6) : Instr :=
  if funct = functAdd then .add rs rt rd shamt
  else if funct = functSub then .sub rs rt rd shamt
  else if funct = functAnd then .and rs rt rd shamt
  else if funct = functOr then .or rs rt rd shamt
  else if funct = functSlt then .slt rs rt rd shamt
  else .unknownFunct rs rt rd shamt funct

/-- The immediate-format instruction with opcode `op` (R77, R79). -/
def immediateInstr (op : BitVec 6) (rs rt : Reg) (imm : Int) : Instr :=
  if op = opAddi then .addi rs rt imm
  else if op = opLw then .lw rs rt imm
  else if op = opSw then .sw rs rt imm
  else if op = opBeq then .beq rs rt imm
  else if op = opBne then .bne rs rt imm
  else .unknownOp op rs rt imm

/-- The jump-format value with opcode `op`: the jump table has the one entry `j` (R78); any other code
of the jump set would be an unknown jump (R181). -/
def jumpDecoded (op : BitVec 6) (addr : BitVec 26) : Decoded :=
  if op = opJ then .instr (.j addr) else .unknownJump op addr

/-- The decoder function of R80. -/
def decode (w : Word) : Decoded :=
  match formatOf (fieldOp w) with
  | .register =>
    .instr (registerInstr (fieldRs w) (fieldRt w) (fieldRd w) (fieldShamt w) (fieldFunct w))
  | .jump => jumpDecoded (fieldOp w) (fieldAddr w)
  | .immediate =>
    .instr (immediateInstr (fieldOp w) (fieldRs w) (fieldRt w) (sext16 (fieldImm w)))

/-! ### The encoder (R82) -/

/-- A register-format word: `(rs << 21) | (rt << 16) | (rd << 11) | (shamt << 6) | funct` (R82). -/
def registerWord (rs rt rd shamt : Reg) (funct : BitVec 6) : Word :=
  (rs.setWidth 32 <<< 21) ||| (rt.setWidth 32 <<< 16) ||| (rd.setWidth 32 <<< 11) |||
    (shamt.setWidth 32 <<< 6) ||| funct.setWidth 32

/-- An immediate-format word: `(op << 26) | (rs << 21) | (rt << 16) | (imm mod 65536)` (R82). -/
def immediateWord (op : BitVec 6) (rs rt : Reg) (imm : Int) : Word :=
  (op.setWidth 32 <<< 26) ||| (rs.setWidth 32 <<< 21) ||| (rt.setWidth 32 <<< 16) |||
    (BitVec.ofInt 16 imm).setWidth 32

/-- A jump-format word: `(op << 26) | addr` (R82). -/
def jumpWord (op : BitVec 6) (addr : BitVec 26) : Word :=
  (op.setWidth 32 <<< 26) ||| addr.setWidth 32

/-- The word of an instruction (R82, R86). -/
def encode : Instr → Word
  | .add rs rt rd shamt => registerWord rs rt rd shamt functAdd
  | .sub rs rt rd shamt => registerWord rs rt rd shamt functSub
  | .and rs rt rd shamt => registerWord rs rt rd shamt functAnd
  | .or rs rt rd shamt => registerWord rs rt rd shamt functOr
  | .slt rs rt rd shamt => registerWord rs rt rd shamt functSlt
  | .unknownFunct rs rt rd shamt funct => registerWord rs rt rd shamt funct
  | .addi rs rt imm => immediateWord opAddi rs rt imm
  | .lw rs rt imm => immediateWord opLw rs rt imm
  | .sw rs rt imm => immediateWord opSw rs rt imm
  | .beq rs rt imm => immediateWord opBeq rs rt imm
  | .bne rs rt imm => immediateWord opBne rs rt imm
  | .unknownOp op rs rt imm => immediateWord op rs rt imm
  | .j addr => jumpWord opJ addr

/-! ### The opcode table (spec/opcode_table.json) -/

/-- One row: a word is of the row when `word &&& mask = pattern` and no earlier row has it. -/
structure TableRow where
  mnemonic : String
  pattern : Word
  mask : Word
deriving DecidableEq, Repr

/-- The rows of spec/opcode_table.json in ascending "priority". -/
def opcodeTable : List TableRow :=
  [⟨"add", 0x00000020, 0xFC00003F⟩, ⟨"sub", 0x00000022, 0xFC00003F⟩, ⟨"and", 0x00000024, 0xFC00003F⟩,
   ⟨"or", 0x00000025, 0xFC00003F⟩, ⟨"slt", 0x0000002A, 0xFC00003F⟩, ⟨"addi", 0x20000000, 0xFC000000⟩,
   ⟨"lw", 0x8C000000, 0xFC000000⟩, ⟨"sw", 0xAC000000, 0xFC000000⟩, ⟨"beq", 0x10000000, 0xFC000000⟩,
   ⟨"bne", 0x14000000, 0xFC000000⟩, ⟨"j", 0x08000000, 0xFC000000⟩,
   ⟨"unknown(funct)", 0x00000000, 0xFC000000⟩, ⟨"unknown(op)", 0x00000000, 0x00000000⟩]

/-- The mnemonic of the first row, in ascending priority, that has the word. -/
def firstRow (w : Word) : Option String :=
  (opcodeTable.find? fun r => w &&& r.mask = r.pattern).map TableRow.mnemonic

/-! ### The host's question about one table row -/

/-- The 32-bit word whose low `nbits` bits are `w` and whose other bits are 0. -/
def wordOfBits (nbits w : Nat) : Word := BitVec.ofNat 32 (w % 2 ^ nbits)

/-- The instruction read from a word of the table: one 32-bit word, `none` where more than one word is
asked for (R70: no instruction spans more than one word). -/
def decodeTableWord (nbits w : Nat) : Option Instr :=
  if nbits ≤ 32 then
    match decode (wordOfBits nbits w) with
    | .instr i => some i
    | .unknownJump _ _ => none
    | .unknownType => none
  else none

end Sys2Proof
end

