-- ==== Sys2Proof/Machine/Operands.lean ====
section
/-! DEFINITION. Operand forms: narrowing, the effective address, and the inputs of the program-counter
multiplexer (spec/00_scope.md R9, spec/20_memory.md R53, spec/40_execution_cycle.md R110). -/

namespace Sys2Proof.Machine

/-- `wrap32(v) = v mod 2^32` with a non-negative remainder (R9). -/
def wrap32 (v : Int) : Word := BitVec.ofInt 32 v

/-- A register value as the unsigned integer it is (R9). -/
def unsignedValue (v : Word) : Int := (v.toNat : Int)

/-- The effective address of lw and sw (R53): the exact sum, reduced modulo 2^32 only when `EA_WRAP`. -/
def effectiveAddress (eaWrap : Bool) (base : Word) (imm : Int) : Int :=
  if eaWrap then (unsignedValue base + imm) % 4294967296 else unsignedValue base + imm

/-- SEQ of R110. -/
def sequentialPc (pc : Int) : Int := pc + 4

/-- BRANCH of R110: exact integer arithmetic from the branch's own pc. -/
def branchTarget (pc imm : Int) : Int := pc + 4 + imm * 4

/-- The next pc of a conditional branch (R153, R154). -/
def branchPc (taken : Bool) (pc imm : Int) : Int :=
  if taken then branchTarget pc imm else sequentialPc pc

/-- JUMP of R110: `(pc & 0xF0000000) | ((addr << 2) & 0x0FFFFFFF)` of the jump's own pc (R180, C5).
The pc enters as its low 32 bits, which is the pc itself for every pc an instruction is executed at
(D4). DESIGN CHOICE for any other pc, where R9 defines no `&`; log entry 8. -/
def jumpTarget (pc : Int) (addr : BitVec 26) : Int :=
  ((((pc % 4294967296).toNat &&& 0xF0000000) ||| ((addr.toNat <<< 2) &&& 0x0FFFFFFF) : Nat) : Int)

end Sys2Proof.Machine
end

