-- ==== Sys2Proof/Machine/Flags.lean ====
section
/-! DEFINITION. The core has no condition codes or status flags and no instruction sets one
(spec/10_state.md R31). What stands here instead is the ALU of spec/30_encoding.md R83: its results and
the comparisons that slt writes to a register and that a branch uses at once. -/

namespace Sys2Proof.Machine

/-- `wrap32(A + B)` (R130); overflow does not trap (C4). -/
def aluAdd (a b : Word) : Word := wrap32 (unsignedValue a + unsignedValue b)

/-- `wrap32(A - B)` (R131). -/
def aluSub (a b : Word) : Word := wrap32 (unsignedValue a - unsignedValue b)

/-- `A & B` (R132). -/
def aluAnd (a b : Word) : Word := a &&& b

/-- `A | B` (R133). -/
def aluOr (a b : Word) : Word := a ||| b

/-- `A < B`, both as unsigned integers (R9, R134, C3). -/
def lessUnsigned (a b : Word) : Bool := decide (unsignedValue a < unsignedValue b)

/-- `1 if A < B (unsigned) else 0` (R134). -/
def aluSlt (a b : Word) : Word := if lessUnsigned a b then 1 else 0

/-- `wrap32(A + imm)` (R150). -/
def aluAddImm (a : Word) (imm : Int) : Word := wrap32 (unsignedValue a + imm)

/-- The test of beq (R153). -/
def testEqual (a b : Word) : Bool := decide (a = b)

/-- The test of bne, "mirror with inequality test" (R154). -/
def testNotEqual (a b : Word) : Bool := !testEqual a b

end Sys2Proof.Machine
end

