-- ==== Sys2Proof/Config.lean ====
section
/-! DEFINITION. What is fixed for a machine's life (spec/10_state.md R37) and the named parameters with
their defaults (spec/00_scope.md R7). No value is left undefined by the spec, so no free value stands here. -/

namespace Sys2Proof

/-- `R_UNKNOWN_POLICY`: what executing an unknown register-format function code does (R7, R135). -/
inductive UnknownPolicy where
  /-- It advances the pc and is counted (the default, D7). -/
  | nop
  /-- The model gives the step no meaning. -/
  | refuse
deriving DecidableEq, Repr

/-- The parameters a load takes beside its words and base, each with the default of R7. -/
structure Params where
  /-- `DEFAULT_BASE`, used when the load gives no base (R232). PRESUMED by the spec's decision D3; log entry 5. -/
  defaultBase : Int := 0x00400000
  /-- `EA_WRAP`: reduce effective addresses modulo 2^32 (R53). Spec's decision D6; log entry 2. -/
  eaWrap : Bool := false
  /-- `R_UNKNOWN_POLICY`. Spec's decision D7; log entry 3. -/
  unknownPolicy : UnknownPolicy := .nop
deriving DecidableEq, Repr

/-- `Config` of R37: captured at load, read by no instruction as data and written by none (R30, R33). -/
structure Config where
  /-- `BASE`, the pc of the first loaded word (R30). -/
  base : Int
  /-- `IMEM`, the immutable instruction memory; its length is `L` (R33). -/
  imem : List Word
  eaWrap : Bool
  unknownPolicy : UnknownPolicy
deriving DecidableEq, Repr

end Sys2Proof
end

