-- ==== Sys2Proof/Machine/State.lean ====
section
/-! DEFINITION. The machine's state as plain data (spec/10_state.md R20 to R37), the step result
(spec/40_execution_cycle.md R107, R108) and the state after load and reset (R36, R233). -/

namespace Sys2Proof.Machine

/-- The register file: 32 words (R20). -/
abbrev Regs := Vector Word 32

/-- The data memory `DMEM`: a map from integer keys to whole words, 0 where never written (R34, R50, R54).
It is held as its keys with a non-zero value, strictly rising (log entry 1; `Memory.wf` in Ops.lean). -/
abbrev Memory := List (Int × Word)

/-- The side-effect record of a step (R108; the write record's fields are the spec's decision D14). -/
inductive Effect where
  | memRead (addr : Int) (value : Word)
  | memWrite (addr : Int) (value : Word)
deriving DecidableEq, Repr

/-- The step result (R107), one constructor per status of spec/60_exceptions.md R201. -/
inductive StepResult where
  | ok (pcBefore : Int) (word : Word) (decoded : Decoded) (stepCount : Nat) (effect : Option Effect)
      (regs : Regs)
  | halted
  | pcOutOfRange (pc : Int)
  | unknownJump (decoded : Decoded)
  | unknownType
deriving DecidableEq, Repr

/-- The whole state (R37). `effect` and `result` are the model's own fields: what the step gives back
(R100, R107), held here because a step answers a state; no step reads them (log entry 7). -/
structure State where
  /-- `Config`, fixed for the machine's life (R37). -/
  cfg : Config
  /-- The register file (R20). -/
  regs : Regs
  /-- The program counter, an unbounded integer (R24, D4). -/
  pc : Int
  /-- The data memory (R34). -/
  dmem : Memory
  /-- The count of "ok" steps (R29). -/
  stepCount : Nat
  /-- The halted flag (R28). -/
  halted : Bool
  /-- The side-effect record of the latest step, none where it has none (R108). -/
  effect : Option Effect
  /-- The result of the latest step, none before the first (R107). -/
  result : Option StepResult
deriving DecidableEq, Repr

/-- What stops the machine with a fault: nothing. The core has no traps (R200); "all failure is
communicated through the result's status field" (R100), and every status leaves a state the spec gives
(R202), so each is a next state. Nobody raises a `Fault`. -/
inductive Fault where
deriving DecidableEq, Repr

/-- Why the model gives no meaning. -/
inductive Refusal where
  /-- An arm of `exec` whose instruction has no meaning yet; raised by nobody in this model. Safe. -/
  | notModelled (mnemonic : String)
  /-- Raised by `execUnknownFunct` when the machine's `R_UNKNOWN_POLICY` is `refuse` (R135): "the model
  gives the step no meaning". Safe: the model stops where the hardware may go on. -/
  | unknownFunct
  /-- Raised by `load` when the preconditions of R231 fail: "the model builds no machine". Safe. -/
  | loadRefused
deriving DecidableEq, Repr

/-- The state after a load or reset with configuration `cfg` (R36, R233). -/
def State.initial (cfg : Config) : State where
  cfg := cfg
  regs := Vector.replicate 32 0
  pc := cfg.base
  dmem := []
  stepCount := 0
  halted := false
  effect := none
  result := none

/-- The configuration of a load of the empty word list with no base and every parameter at its default
(R7, R33: "`L = 0` is allowed"). -/
def emptyConfig : Config where
  base := ({} : Params).defaultBase
  imem := []
  eaWrap := ({} : Params).eaWrap
  unknownPolicy := ({} : Params).unknownPolicy

/-- The machine right after reset with no program loaded (log entry 6). -/
def State.reset : State := State.initial emptyConfig

end Sys2Proof.Machine
end

