-- ==== Sys2Proof/Machine/Ops.lean ====
section
/-! DEFINITION. The named operations over memory and registers (spec/00_scope.md R11), the commit phase
(spec/40_execution_cycle.md R106) and raising a terminal status (spec/60_exceptions.md R202). There is no
return from a terminal status: no instruction and no step clears `halted` (R210). -/

namespace Sys2Proof.Machine

/-! ### Data memory (spec/20_memory.md R50 to R52) -/

/-- What a key never written reads as: 0 (R34). -/
def Memory.unwritten : Word := 0

/-- `DMEM(a)` (R51). -/
def Memory.read : Memory → Int → Word
  | [], _ => Memory.unwritten
  | (k, v) :: m, a => if a = k then v else Memory.read m a

/-- List `a` with value `v` before the rest, or leave it unlisted when that is what it reads as anyway. -/
def Memory.cons (a : Int) (v : Word) (m : Memory) : Memory :=
  if v = Memory.unwritten then m else (a, v) :: m

/-- `DMEM(a) <- v`, no other key changed (R52), keeping the keys in rising order. -/
def Memory.write : Memory → Int → Word → Memory
  | [], a, v => Memory.cons a v []
  | (k, u) :: m, a, v =>
    if a < k then Memory.cons a v ((k, u) :: m)
    else if a = k then Memory.cons a v m
    else (k, u) :: Memory.write m a v

/-- The canonical form: keys strictly rising and no entry equal to what an unlisted key reads as. -/
abbrev Memory.wf (m : Memory) : Prop :=
  m.Pairwise (fun p q => p.1 < q.1) ∧ ∀ p ∈ m, p.2 ≠ Memory.unwritten

/-! ### Register and memory access (R11, R21, R51, R52) -/

/-- `x[r]`. Register 0 reads as zero because every commit forces it to zero (R22). -/
def State.readReg (s : State) (r : Reg) : Word := s.regs[r.toNat]'(r.isLt)

/-- `x[r] <- v`, register 0 included: its write is undone by the commit (R22). -/
def State.writeReg (s : State) (r : Reg) (v : Word) : State :=
  { s with regs := s.regs.set r.toNat v (r.isLt) }

/-- `MemRead(a, 4)` (R51). -/
def State.memRead (s : State) (a : Int) : Word := s.dmem.read a

/-- `MemWrite(a, 4, v)` (R52). -/
def State.memWrite (s : State) (a : Int) (v : Word) : State := { s with dmem := s.dmem.write a v }

/-- The effective address key of `imm($rs)` (R53). -/
def State.dataKey (s : State) (rs : Reg) (imm : Int) : Int :=
  effectiveAddress s.cfg.eaWrap (s.readReg rs) imm

/-! ### Ending a step -/

/-- The state an "ok" step leaves: the next pc and the side-effect record of phase 5, then phase 6,
`x[0] <- 0` and `step_count <- step_count + 1` (R105, R106). -/
def committed (s : State) (effect : Option Effect) (nextPc : Int) : State :=
  { s.writeReg 0 0 with pc := nextPc, effect := effect, stepCount := s.stepCount + 1 }

/-- The end of a non-terminal dispatch: no instruction that commits can stop. -/
def commit (s : State) (effect : Option Effect) (nextPc : Int) : Host.Outcome State Fault Refusal :=
  .next (committed s effect nextPc)

/-- `raise S(info)`: sets the halted flag and changes no register, memory value, pc or step count (R11, R202).
The step has no side effect, so the output field `effect` is none (log entry 7). -/
def raiseStatus (s : State) (status : StepResult) : State :=
  { s with halted := true, effect := none, result := some status }

end Sys2Proof.Machine
end

