-- ==== Sys2Proof/Machine/Cycle.lean ====
section
/-! DEFINITION. The step frame (spec/40_execution_cycle.md R100 to R111): the halted check, the
fetch-range check, fetch, decode, and the step result around phases 5 and 6, which come as an argument. -/

namespace Sys2Proof.Machine

/-- Phase 2 (R102): the instruction-memory index `(pc - BASE) div 4`, none where it is out of range. -/
def fetchIndex (s : State) : Option Nat :=
  let off := s.pc - s.cfg.base
  if off < 0 then none
  else if (off / 4).toNat < s.cfg.imem.length then some (off / 4).toNat
  else none

/-- Phases 2 and 3 (R102, R103): the word at the pc, from `IMEM` only (R55). -/
def fetchWord (s : State) : Option Word :=
  match fetchIndex s with
  | some k => s.cfg.imem[k]?
  | none => none

/-- The `Ok` record of R107 after phase 6: the register snapshot is taken after the force of register 0 (R109). -/
def reportOk (pcBefore : Int) (w : Word) (d : Decoded) (t : State) : State :=
  { t with result := some (.ok pcBefore w d t.stepCount t.effect t.regs) }

/-- Phase 1 of a halted machine (R101, R203): status "halted" and nothing else. -/
def reportHalted (s : State) : State :=
  { s with effect := none, result := some .halted }

/-- One step (R100) with phases 5 and 6 given by `dispatch`. -/
def cycle (dispatch : Instr → State → Host.Outcome State Fault Refusal) (s : State) :
    Host.Outcome State Fault Refusal :=
  if s.halted then .next (reportHalted s)
  else
    match fetchWord s with
    | none => .next (raiseStatus s (.pcOutOfRange s.pc))
    | some w =>
      match decode w with
      | .instr i =>
        match dispatch i s with
        | .next t => .next (reportOk s.pc w (.instr i) t)
        | .fault r => .fault r
        | .refused r => .refused r
      | .unknownJump op addr => .next (raiseStatus s (.unknownJump (.unknownJump op addr)))
      | .unknownType => .next (raiseStatus s .unknownType)

/-- `s`, running, with the word `w` where the next step fetches: in the slot of the loaded program the
pc selects, or, where the pc selects none, as a one-word program loaded at the pc (log entry 6). -/
def placeWord (s : State) (w : Word) : State :=
  match fetchIndex s with
  | some k => { s with cfg := { s.cfg with imem := s.cfg.imem.set k w }, halted := false }
  | none => { s with cfg := { s.cfg with base := s.pc, imem := [w] }, halted := false }

end Sys2Proof.Machine
end

