-- ==== Sys2Proof/Machine/Immediate.lean ====
section
/-! DEFINITION. The immediate-format instructions (spec/42_immediate_format.md R150 to R155). -/

namespace Sys2Proof.Machine

/-- R150. -/
def execAddi (rs rt : Reg) (imm : Int) (s : State) : Host.Outcome State Fault Refusal :=
  commit (s.writeReg rt (aluAddImm (s.readReg rs) imm)) none (sequentialPc s.pc)

/-- R151: the read is reported even when `rt` is register 0. -/
def execLw (rs rt : Reg) (imm : Int) (s : State) : Host.Outcome State Fault Refusal :=
  let ea := s.dataKey rs imm
  let v := s.memRead ea
  commit (s.writeReg rt v) (some (.memRead ea v)) (sequentialPc s.pc)

/-- R152: the value is `wrap32(x[rt])`, which is `x[rt]` since a register holds a `Word32`. -/
def execSw (rs rt : Reg) (imm : Int) (s : State) : Host.Outcome State Fault Refusal :=
  let ea := s.dataKey rs imm
  let v := s.readReg rt
  commit (s.memWrite ea v) (some (.memWrite ea v)) (sequentialPc s.pc)

/-- R153. -/
def execBeq (rs rt : Reg) (imm : Int) (s : State) : Host.Outcome State Fault Refusal :=
  commit s none (branchPc (testEqual (s.readReg rs) (s.readReg rt)) s.pc imm)

/-- R154. -/
def execBne (rs rt : Reg) (imm : Int) (s : State) : Host.Outcome State Fault Refusal :=
  commit s none (branchPc (testNotEqual (s.readReg rs) (s.readReg rt)) s.pc imm)

/-- R155: a no-op that advances the pc and is counted. -/
def execUnknownOp (s : State) : Host.Outcome State Fault Refusal :=
  commit s none (sequentialPc s.pc)

end Sys2Proof.Machine
end

