-- ==== Sys2Proof/Machine/Jump.lean ====
section
/-! DEFINITION. The jump-format instruction (spec/43_jump_format.md R180). -/

namespace Sys2Proof.Machine

/-- R180: no link register and no delay slot. -/
def execJ (addr : BitVec 26) (s : State) : Host.Outcome State Fault Refusal :=
  commit s none (jumpTarget s.pc addr)

end Sys2Proof.Machine
end

