-- ==== Sys2Proof/Machine/Register.lean ====
section
/-! DEFINITION. The register-format instructions (spec/41_register_format.md R130 to R135). None reads
`shamt` (R81). -/

namespace Sys2Proof.Machine

/-- The shape the five named operations share: a result into `rd`, pc + 4, no side effect. -/
def registerResult (rd : Reg) (v : Word) (s : State) : Host.Outcome State Fault Refusal :=
  commit (s.writeReg rd v) none (sequentialPc s.pc)

/-- R130. -/
def execAdd (rs rt rd : Reg) (s : State) : Host.Outcome State Fault Refusal :=
  registerResult rd (aluAdd (s.readReg rs) (s.readReg rt)) s

/-- R131. -/
def execSub (rs rt rd : Reg) (s : State) : Host.Outcome State Fault Refusal :=
  registerResult rd (aluSub (s.readReg rs) (s.readReg rt)) s

/-- R132. -/
def execAnd (rs rt rd : Reg) (s : State) : Host.Outcome State Fault Refusal :=
  registerResult rd (aluAnd (s.readReg rs) (s.readReg rt)) s

/-- R133. -/
def execOr (rs rt rd : Reg) (s : State) : Host.Outcome State Fault Refusal :=
  registerResult rd (aluOr (s.readReg rs) (s.readReg rt)) s

/-- R134. -/
def execSlt (rs rt rd : Reg) (s : State) : Host.Outcome State Fault Refusal :=
  registerResult rd (aluSlt (s.readReg rs) (s.readReg rt)) s

/-- R135: by the machine's `R_UNKNOWN_POLICY`. -/
def execUnknownFunct (s : State) : Host.Outcome State Fault Refusal :=
  match s.cfg.unknownPolicy with
  | .nop => commit s none (sequentialPc s.pc)
  | .refuse => .refused .unknownFunct

end Sys2Proof.Machine
end

