-- ==== Sys2Proof/Machine/Step.lean ====
section
/-! DEFINITION. The single step (spec/40_execution_cycle.md R100). -/

namespace Sys2Proof.Machine

/-- One step of the machine: the frame of `cycle` around `exec`. -/
def step (s : State) : Host.Outcome State Fault Refusal := cycle exec s

/-- `s` with the word `w` of `nbits` bits (the bits above them 0) where `step` fetches next. -/
def State.withFetchWord (s : State) (nbits w : Nat) : State := placeWord s (wordOfBits nbits w)

end Sys2Proof.Machine
end

