-- ==== Sys2Proof/Machine/HostOps.lean ====
section
/-! DEFINITION. The host's operations on a machine beside the step (spec/70_reset_and_hazards.md R230 to
R237): load, static decoding, reset, the bounded run, inspection; and the status codes of R201. -/

namespace Sys2Proof.Machine

/-- The load preconditions of R231 (spec's decision D5). The words come as integers, so that the first
one can fail. -/
abbrev loadAdmitted (words : List Int) (base : Int) : Prop :=
  (∀ w ∈ words, 0 ≤ w ∧ w < 4294967296) ∧ base % 4 = 0 ∧ 0 ≤ base ∧
    base + 4 * (words.length : Int) ≤ 4294967296

/-- Load (R230 to R233): a fresh machine, or none where R231 fails. -/
def load (p : Params) (words : List Int) (base : Option Int) : Host.Outcome State Fault Refusal :=
  let b := base.getD p.defaultBase
  if loadAdmitted words b then
    .next (State.initial
      { base := b, imem := words.map wrap32, eaWrap := p.eaWrap, unknownPolicy := p.unknownPolicy })
  else .refused .loadRefused

/-- Static decoding from the pc `b` on (R234). -/
def staticDecoding : List Word → Int → List (Int × Decoded)
  | [], _ => []
  | w :: ws, b => (b, decode w) :: staticDecoding ws (b + 4)

/-- What a load gives the host (R230, R237): the machine and, alongside it, the static decoding of its
words at the pcs they occupy (R234). -/
def loadWithListing (p : Params) (words : List Int) (base : Option Int) :
    Host.Outcome (State × List (Int × Decoded)) Fault Refusal :=
  match load p words base with
  | .next t => .next (t, staticDecoding t.cfg.imem t.cfg.base)
  | .fault r => .fault r
  | .refused r => .refused r

/-- Reset (R235): the load state again for the same words and base, everything else discarded. -/
def reload (s : State) : State := State.initial s.cfg

/-- The bounded run (R112): the results in order, and where the machine stands after. A refused step
(only under `R_UNKNOWN_POLICY = refuse`) ends it without a result. -/
def run : Nat → State → List StepResult × Host.Outcome State Fault Refusal
  | 0, s => ([], .next s)
  | n + 1, s =>
    if s.halted then ([], .next s)
    else
      match step s with
      | .next t => (t.result.toList ++ (run n t).1, (run n t).2)
      | .fault r => ([], .fault r)
      | .refused r => ([], .refused r)

/-- What inspection returns (R35); `BASE` and `IMEM` are not in it. -/
structure Inspection where
  regs : Regs
  memory : List (Int × Word)
  pc : Int
  stepCount : Nat
  halted : Bool
deriving DecidableEq, Repr

/-- Inspection (R35): a snapshot that changes no state; the memory view is the non-zero entries. -/
def inspect (s : State) : Inspection where
  regs := s.regs
  memory := s.dmem
  pc := s.pc
  stepCount := s.stepCount
  halted := s.halted

/-- The status codes of R201 (the spec's own, D15). -/
def statusCode : StepResult → Nat
  | .ok _ _ _ _ _ _ => 0
  | .halted => 1
  | .pcOutOfRange _ => 2
  | .unknownJump _ => 3
  | .unknownType => 4

end Sys2Proof.Machine
end

