-- ==== Sys2Proof/WellFormed.lean ====
section
/-! DEFINITION. Which terms of `Instr` the decoder can produce (spec/30_encoding.md R74, R76, R77). -/

namespace Sys2Proof

/-- The decoded immediate is "in range [-32768, 32767]" (R74). -/
def immInRange (imm : Int) : Bool := decide (-32768 ≤ imm) && decide (imm ≤ 32767)

/-- An unknown function code is none of the five named ones (R76, R79). -/
def functUnknown (funct : BitVec 6) : Bool := decide (funct ∉ knownFuncts)

/-- An unknown immediate-format opcode is not 0, no jump opcode and none of the five named ones (R72, R77, R79). -/
def opUnknown (op : BitVec 6) : Bool :=
  decide (op ≠ 0) && decide (op ∉ jumpSet) && decide (op ∉ knownOps)

/-- The well-formed instructions: exactly those some word decodes to. -/
def Instr.wellFormed : Instr → Bool
  | .add _ _ _ _ => true
  | .sub _ _ _ _ => true
  | .and _ _ _ _ => true
  | .or _ _ _ _ => true
  | .slt _ _ _ _ => true
  | .unknownFunct _ _ _ _ funct => functUnknown funct
  | .addi _ _ imm => immInRange imm
  | .lw _ _ imm => immInRange imm
  | .sw _ _ imm => immInRange imm
  | .beq _ _ imm => immInRange imm
  | .bne _ _ imm => immInRange imm
  | .unknownOp op _ _ imm => opUnknown op && immInRange imm
  | .j _ => true

end Sys2Proof
end

