-- ==== Sys2Proof/Safety.lean ====
section
/-! DEFINITION. The terms in which claims about the machine are stated: its invariant, what an "ok" step
leaves, which registers an instruction names, and the memory a list of step results leaves behind. -/

namespace Sys2Proof

/-- What R231 demands of a load's base and length, kept for the machine's life (spec/10_state.md R26, R37). -/
abbrev Config.admitted (c : Config) : Prop :=
  c.base % 4 = 0 ∧ 0 ≤ c.base ∧ c.base + 4 * (c.imem.length : Int) ≤ 4294967296

/-- The destination register of an instruction (R23). -/
def Instr.dest : Instr → Option Reg
  | .add _ _ rd _ => some rd
  | .sub _ _ rd _ => some rd
  | .and _ _ rd _ => some rd
  | .or _ _ rd _ => some rd
  | .slt _ _ rd _ => some rd
  | .unknownFunct _ _ _ _ _ => none
  | .addi _ rt _ => some rt
  | .lw _ rt _ => some rt
  | .sw _ _ _ => none
  | .beq _ _ _ => none
  | .bne _ _ _ => none
  | .unknownOp _ _ _ _ => none
  | .j _ => none

/-- The registers an instruction reads (R83): operand A is `x[rs]`, operand B `x[rt]` where it is used. -/
def Instr.sources : Instr → List Reg
  | .add rs rt _ _ => [rs, rt]
  | .sub rs rt _ _ => [rs, rt]
  | .and rs rt _ _ => [rs, rt]
  | .or rs rt _ _ => [rs, rt]
  | .slt rs rt _ _ => [rs, rt]
  | .unknownFunct _ _ _ _ _ => []
  | .addi rs _ _ => [rs]
  | .lw rs _ _ => [rs]
  | .sw rs rt _ => [rs, rt]
  | .beq rs rt _ => [rs, rt]
  | .bne rs rt _ => [rs, rt]
  | .unknownOp _ _ _ _ => []
  | .j _ => []

/-- The instructions that can set the pc to anything but pc + 4 (R25). -/
def Instr.isControl : Instr → Bool
  | .add _ _ _ _ => false
  | .sub _ _ _ _ => false
  | .and _ _ _ _ => false
  | .or _ _ _ _ => false
  | .slt _ _ _ _ => false
  | .unknownFunct _ _ _ _ _ => false
  | .addi _ _ _ => false
  | .lw _ _ _ => false
  | .sw _ _ _ => false
  | .beq _ _ _ => true
  | .bne _ _ _ => true
  | .unknownOp _ _ _ _ => false
  | .j _ => true

namespace Machine

/-- The machine's invariant: the memory is in canonical form, register 0 is 0 (R22), the configuration
is one a load admits (R231) and the pc is a multiple of 4 (R26). -/
abbrev Inv (s : State) : Prop :=
  s.dmem.wf ∧ s.readReg 0 = 0 ∧ s.cfg.admitted ∧ s.pc % 4 = 0

/-- Status "ok" (R201). -/
def StepResult.isOk : StepResult → Bool
  | .ok _ _ _ _ _ _ => true
  | .halted => false
  | .pcOutOfRange _ => false
  | .unknownJump _ => false
  | .unknownType => false

/-- The statuses that set the halted flag (R201: kind "terminal"). -/
def StepResult.isTerminal : StepResult → Bool
  | .ok _ _ _ _ _ _ => false
  | .halted => false
  | .pcOutOfRange _ => true
  | .unknownJump _ => true
  | .unknownType => true

/-- `t` is `s` after phases 5 and 6 of an "ok" step whose registers, but for the forced register 0, are
`x`, whose data memory reads as `mem`, whose side effect is `effect` and whose next pc is `pc`; and
nothing else of the state is changed. -/
structure Retires (s t : State) (x : Reg → Word) (mem : Int → Word) (effect : Option Effect)
    (pc : Int) : Prop where
  regs : ∀ r, t.readReg r = if r = 0 then 0 else x r
  mem : ∀ a, t.memRead a = mem a
  effect : t.effect = effect
  pc : t.pc = pc
  stepCount : t.stepCount = s.stepCount + 1
  halted : t.halted = s.halted
  cfg : t.cfg = s.cfg
  result : t.result = s.result

/-- The registers of `s` with `v` in register `rd`. -/
def withReg (s : State) (rd : Reg) (v : Word) : Reg → Word :=
  fun r => if r = rd then v else s.readReg r

/-- The data memory after a step with the given result, from the side effect it reports (R61, R108). -/
def memoryAfter (mem : Int → Word) : StepResult → Int → Word
  | .ok _ _ _ _ (some (.memWrite k v)) _ => fun a => if a = k then v else mem a
  | .ok _ _ _ _ (some (.memRead _ _)) _ => mem
  | .ok _ _ _ _ none _ => mem
  | .halted => mem
  | .pcOutOfRange _ => mem
  | .unknownJump _ => mem
  | .unknownType => mem

end Machine

end Sys2Proof
end

