-- ==== Sys2Proof/Certificates/Slice0/Obligations.lean ====
section
/-! DEFINITION. The statements for the provers. Each docstring names the rule of spec/ it states. -/

open Sys2Proof Sys2Proof.Machine

/-! ### Load, reset, inspection -/

/-- R36, R233, with the parameters at their defaults of R7: the state after the load of the empty word
list (this model's choice of a load, log entry 6). Not of the source but the spec's own decisions are: the
zero of registers 1 to 31 (D8, log entry 4), the base and so the pc (D3, log entry 5), `EA_WRAP = false`
(D6, log entry 2) and `R_UNKNOWN_POLICY = nop` (D7, log entry 3). The two output fields are this model's
(log entry 7). -/
def Obligations.ResetState : Prop :=
  (∀ r, State.reset.readReg r = 0) ∧ State.reset.pc = 0x00400000 ∧ State.reset.cfg.base = 0x00400000 ∧
    State.reset.cfg.imem = [] ∧ (∀ a, State.reset.memRead a = 0) ∧ State.reset.stepCount = 0 ∧
    State.reset.halted = false ∧ State.reset.cfg.eaWrap = false ∧
    State.reset.cfg.unknownPolicy = .nop ∧ State.reset.effect = none ∧ State.reset.result = none

/-- R22, R26, R36: the invariant holds at reset (whose base is the spec's decision D3, log entry 5). -/
def Obligations.ResetMeetsInvariant : Prop := Inv State.reset

/-- R26, R36, R231 (the preconditions are the spec's decision D5, log entry 11): every admitted load gives
a state that meets the invariant, whatever the parameters. -/
def Obligations.LoadMeetsInvariant : Prop :=
  ∀ (p : Params) (words : List Int) (base : Option Int) (t : State),
    load p words base = .next t → Inv t

/-- R231 to R233 (the preconditions are the spec's decision D5, log entry 11, and the zero of registers 1
to 31 its decision D8, log entry 4): an admitted load answers the state of R233; any other load is refused. -/
def Obligations.LoadRule : Prop :=
  ∀ (p : Params) (words : List Int) (base : Option Int),
    let b := base.getD p.defaultBase
    let admitted := (∀ w ∈ words, 0 ≤ w ∧ w < 2 ^ 32) ∧ b % 4 = 0 ∧ 0 ≤ b ∧ b + 4 * words.length ≤ 2 ^ 32
    (admitted → ∃ t, load p words base = .next t ∧ (∀ r, t.readReg r = 0) ∧ t.pc = b ∧
      (∀ a, t.memRead a = 0) ∧ t.cfg.imem.map (fun w => (w.toNat : Int)) = words ∧ t.cfg.base = b ∧
      t.stepCount = 0 ∧ t.halted = false ∧ t.cfg.eaWrap = p.eaWrap ∧
      t.cfg.unknownPolicy = p.unknownPolicy) ∧
    (¬ admitted → load p words base = .refused .loadRefused)

/-- R235: after any bounded run of a loaded machine, reset gives the machine as the load built it. -/
def Obligations.ResetRestoresLoad : Prop :=
  ∀ (p : Params) (words : List Int) (base : Option Int) (t s : State) (n : Nat) (rs : List StepResult),
    load p words base = .next t → run n t = (rs, .next s) → reload s = t

/-- R35: inspection returns the 32 registers, exactly the non-zero memory keys with their values, the
pc, the step counter and the halted flag. -/
def Obligations.InspectionShowsState : Prop :=
  ∀ s : State, s.dmem.wf →
    (∀ a v, (a, v) ∈ (inspect s).memory ↔ v ≠ 0 ∧ s.memRead a = v) ∧
    ((inspect s).memory.map Prod.fst).Nodup ∧
    (∀ r : Reg, (inspect s).regs[r.toNat]'(r.isLt) = s.readReg r) ∧ (inspect s).pc = s.pc ∧
    (inspect s).stepCount = s.stepCount ∧ (inspect s).halted = s.halted

/-- R234: alongside the machine, load returns the list of pairs of `B + 4*k` and the k-th word's
decoding, which agrees with what every step at that pc decodes. -/
def Obligations.StaticDecodingAgrees : Prop :=
  ∀ (p : Params) (words : List Int) (base : Option Int) (t : State) (listing : List (Int × Decoded)),
    loadWithListing p words base = .next (t, listing) →
    load p words base = .next t ∧ listing.length = words.length ∧
    ∀ (k : Nat) (w : Word), t.cfg.imem[k]? = some w →
      listing[k]? = some (base.getD p.defaultBase + 4 * k, decode w) ∧
      ∀ s u : State, s.cfg = t.cfg → s.halted = false → s.pc = t.cfg.base + 4 * k → step s = .next u →
        u.result = some (.ok s.pc w (decode w) u.stepCount u.effect u.regs)

/-! ### Encoding -/

/-- R80, R82: decoding the word of a well-formed instruction gives the instruction back, every field at
every value. The codes and the exactness of the tables are the spec's decisions D1, D2 (log entry 9). -/
def Obligations.DecodeEncodeAgree : Prop :=
  ∀ i : Instr, i.wellFormed = true → decode (encode i) = .instr i

/-- R80, R81, R84: every word decodes, to a well-formed instruction, and is that instruction's word, so
no bit is dropped and the kept arms of R111 and R181 are never reached (D18, log entry 14). The codes and
the exactness of the tables are the spec's decisions D1, D2 (log entry 9). -/
def Obligations.EveryWordIsAnInstruction : Prop :=
  ∀ w : Word, ∃ i, decode w = .instr i ∧ i.wellFormed = true ∧ encode i = w

/-- R82: the word built from the fields of a format decodes to exactly those fields. The jump opcode 2,
and which instruction a code names, are the spec's decisions D1, D2 (log entry 9). -/
def Obligations.WordRoundTrip : Prop :=
  (∀ (rs rt rd shamt : Reg) (funct : BitVec 6),
    let w : Word := BitVec.ofNat 32 ((rs.toNat <<< 21) ||| (rt.toNat <<< 16) ||| (rd.toNat <<< 11) |||
      (shamt.toNat <<< 6) ||| funct.toNat)
    fieldOp w = 0 ∧ fieldRs w = rs ∧ fieldRt w = rt ∧ fieldRd w = rd ∧ fieldShamt w = shamt ∧
      fieldFunct w = funct ∧ decode w = .instr (registerInstr rs rt rd shamt funct)) ∧
  (∀ (op : BitVec 6) (rs rt : Reg) (imm : Int), op ≠ 0 → op ∉ jumpSet →
    let w : Word := BitVec.ofNat 32 ((op.toNat <<< 26) ||| (rs.toNat <<< 21) ||| (rt.toNat <<< 16) |||
      (imm % 65536).toNat)
    fieldOp w = op ∧ fieldRs w = rs ∧ fieldRt w = rt ∧
      decode w = .instr (immediateInstr op rs rt (sext16 (BitVec.ofInt 16 imm)))) ∧
  (∀ addr : BitVec 26,
    let w : Word := BitVec.ofNat 32 ((2 <<< 26) ||| addr.toNat)
    fieldAddr w = addr ∧ decode w = .instr (.j addr))

/-- R71, R73, R75 (and the fields of R74): each field is the unsigned value of its bits, and the decoder
hands on the fields of the word's format. -/
def Obligations.DecoderExtractsFields : Prop :=
  ∀ w : Word,
    (fieldOp w).toNat = w.toNat / 2 ^ 26 ∧ (fieldRs w).toNat = w.toNat / 2 ^ 21 % 2 ^ 5 ∧
    (fieldRt w).toNat = w.toNat / 2 ^ 16 % 2 ^ 5 ∧ (fieldRd w).toNat = w.toNat / 2 ^ 11 % 2 ^ 5 ∧
    (fieldShamt w).toNat = w.toNat / 2 ^ 6 % 2 ^ 5 ∧ (fieldFunct w).toNat = w.toNat % 2 ^ 6 ∧
    (fieldImm w).toNat = w.toNat % 2 ^ 16 ∧ (fieldAddr w).toNat = w.toNat % 2 ^ 26 ∧
    (fieldOp w = 0 → decode w =
      .instr (registerInstr (fieldRs w) (fieldRt w) (fieldRd w) (fieldShamt w) (fieldFunct w))) ∧
    (fieldOp w ≠ 0 → fieldOp w ∈ jumpSet → decode w = .instr (.j (fieldAddr w))) ∧
    (fieldOp w ≠ 0 → fieldOp w ∉ jumpSet → decode w =
      .instr (immediateInstr (fieldOp w) (fieldRs w) (fieldRt w) (sext16 (fieldImm w))))

/-- R10, R74: sign extension subtracts 65536 exactly when bit 15 is set, lands in -32768 to 32767, and
the raw field is recovered modulo 65536. -/
def Obligations.SignExtensionRule : Prop :=
  ∀ v : BitVec 16,
    (v.toNat / 2 ^ 15 = 0 → sext16 v = v.toNat) ∧ (v.toNat / 2 ^ 15 = 1 → sext16 v = v.toNat - 65536) ∧
    -32768 ≤ sext16 v ∧ sext16 v ≤ 32767 ∧ sext16 v % 65536 = v.toNat

/-- 30_encoding.md: "The first row, in ascending priority, whose (word & mask) == match gives the decoded
form, and this agrees with rule R80 on every word." The codes and the exactness of the tables are the
spec's decisions D1, D2 (log entry 9). -/
def Obligations.DecoderFollowsOpcodeTable : Prop :=
  ∀ w : Word, ∃ i, decode w = .instr i ∧ firstRow w = some i.mnemonic

/-- Words of all three formats decode to what the spec lists for them. The add word is W2 (and W5) of
95_test_vectors.md; the sub word is the example of R131 (41_register_format.md); slt, unknown(0), addi, lw,
bne and unknown(3) are rows of 95_test_vectors.md 2.1; the sw word is in P2 of its section 3 and the
example of R152; the j word is W6a and a row of 2.6. The decodings rest on the codes of the spec's
decisions D1, D2 (log entry 9, PRESUMED). -/
def Obligations.SampleWordsDecode : Prop :=
  decode 0x00411820 = .instr (.add 2 1 3 0) ∧ decode 0x00221822 = .instr (.sub 1 2 3 0) ∧
  decode 0x0022182A = .instr (.slt 1 2 3 0) ∧ decode 0x00000000 = .instr (.unknownFunct 0 0 0 0 0) ∧
  decode 0x2021FFFF = .instr (.addi 1 1 (-1)) ∧ decode 0x8C230004 = .instr (.lw 1 3 4) ∧
  decode 0xAC220004 = .instr (.sw 1 2 4) ∧ decode 0x1420FFFD = .instr (.bne 1 0 (-3)) ∧
  decode 0x0C000000 = .instr (.unknownOp 3 0 0 0) ∧ decode 0x08100010 = .instr (.j 0x100010)

/-! ### What each instruction does: its next state, whole, in every state -/

/-- R130: `x[rd] <- wrap32(x[rs] + x[rt])`, pc + 4, nothing else; no trap on overflow. -/
def Obligations.AddResult : Prop :=
  ∀ (rs rt rd shamt : Reg) (s : State), ∃ t, exec (.add rs rt rd shamt) s = .next t ∧
    Retires s t
      (withReg s rd (BitVec.ofNat 32 (((s.readReg rs).toNat + (s.readReg rt).toNat) % 2 ^ 32)))
      s.memRead none (s.pc + 4)

/-- R131: `x[rd] <- wrap32(x[rs] - x[rt])`, pc + 4, nothing else. -/
def Obligations.SubResult : Prop :=
  ∀ (rs rt rd shamt : Reg) (s : State), ∃ t, exec (.sub rs rt rd shamt) s = .next t ∧
    Retires s t (withReg s rd (s.readReg rs - s.readReg rt)) s.memRead none (s.pc + 4) ∧
    (rd ≠ 0 → ((t.readReg rd).toNat : Int) =
      (((s.readReg rs).toNat : Int) - ((s.readReg rt).toNat : Int)) % 2 ^ 32)

/-- R132 and R133: bitwise and, bitwise or into `rd`, pc + 4, nothing else. -/
def Obligations.AndOrResult : Prop :=
  ∀ (rs rt rd shamt : Reg) (s : State),
    (∃ t, exec (.and rs rt rd shamt) s = .next t ∧
      Retires s t (withReg s rd (s.readReg rs &&& s.readReg rt)) s.memRead none (s.pc + 4)) ∧
    (∃ t, exec (.or rs rt rd shamt) s = .next t ∧
      Retires s t (withReg s rd (s.readReg rs ||| s.readReg rt)) s.memRead none (s.pc + 4))

/-- R134: 1 or 0 into `rd` by unsigned comparison, pc + 4, nothing else. -/
def Obligations.SltResult : Prop :=
  ∀ (rs rt rd shamt : Reg) (s : State), ∃ t, exec (.slt rs rt rd shamt) s = .next t ∧
    Retires s t (withReg s rd (if (s.readReg rs).toNat < (s.readReg rt).toNat then 1 else 0))
      s.memRead none (s.pc + 4)

/-- R135 under `R_UNKNOWN_POLICY = nop` (the spec's decision D7, log entry 3): only pc + 4 and the count. -/
def Obligations.UnknownFunctAdvances : Prop :=
  ∀ (rs rt rd shamt : Reg) (funct : BitVec 6) (s : State), s.cfg.unknownPolicy = .nop →
    ∃ t, exec (.unknownFunct rs rt rd shamt funct) s = .next t ∧
      Retires s t s.readReg s.memRead none (s.pc + 4)

/-- R135 under `R_UNKNOWN_POLICY = refuse` (the spec's decision D7, log entry 3): the step is given no
meaning. -/
def Obligations.UnknownFunctRefused : Prop :=
  ∀ (rs rt rd shamt : Reg) (funct : BitVec 6) (s : State), s.cfg.unknownPolicy = .refuse →
    exec (.unknownFunct rs rt rd shamt funct) s = .refused .unknownFunct

/-- R150: `x[rt] <- wrap32(x[rs] + imm)`, pc + 4, nothing else. -/
def Obligations.AddiResult : Prop :=
  ∀ (rs rt : Reg) (imm : Int) (s : State), ∃ t, exec (.addi rs rt imm) s = .next t ∧
    Retires s t (withReg s rt (s.readReg rs + BitVec.ofInt 32 imm)) s.memRead none (s.pc + 4) ∧
    (rt ≠ 0 → ((t.readReg rt).toNat : Int) = (((s.readReg rs).toNat : Int) + imm) % 2 ^ 32)

/-- R53, by the parameter `EA_WRAP` (the spec's decision D6, log entry 2): the exact sum, or the sum modulo 2^32. -/
def Obligations.EffectiveAddressRule : Prop :=
  ∀ (rs : Reg) (imm : Int) (s : State),
    (s.cfg.eaWrap = false → s.dataKey rs imm = (s.readReg rs).toNat + imm ∧
      (immInRange imm = true → -32768 ≤ s.dataKey rs imm ∧ s.dataKey rs imm ≤ 2 ^ 32 - 1 + 32767)) ∧
    (s.cfg.eaWrap = true → s.dataKey rs imm = ((s.readReg rs).toNat + imm) % 2 ^ 32 ∧
      0 ≤ s.dataKey rs imm ∧ s.dataKey rs imm < 2 ^ 32)

/-- R51 and the effect of R151: lw puts `DMEM(ea)`, 0 where the key was never written, into `rt`,
records the read, and changes no memory. -/
def Obligations.LoadWordResult : Prop :=
  ∀ (rs rt : Reg) (imm : Int) (s : State),
    (∃ t, exec (.lw rs rt imm) s = .next t ∧
      Retires s t (withReg s rt (s.memRead (s.dataKey rs imm))) s.memRead
        (some (.memRead (s.dataKey rs imm) (s.memRead (s.dataKey rs imm)))) (s.pc + 4) ∧
      t.dmem = s.dmem) ∧
    ((∀ e ∈ s.dmem, e.1 ≠ s.dataKey rs imm) → s.memRead (s.dataKey rs imm) = 0)

/-- R52 and the effect of R152: sw sets `DMEM(ea)` to `x[rt]` and no other key, records the write and
writes no register; a key given 0 is not in the inspection view. That the write record holds the key and
the value written is the spec's decision D14 (R108; log entry 14, DESIGN CHOICE), not the source's. -/
def Obligations.StoreWordResult : Prop :=
  ∀ (rs rt : Reg) (imm : Int) (s : State), s.dmem.wf → ∃ t, exec (.sw rs rt imm) s = .next t ∧
    Retires s t s.readReg (fun a => if a = s.dataKey rs imm then s.readReg rt else s.memRead a)
      (some (.memWrite (s.dataKey rs imm) (s.readReg rt))) (s.pc + 4) ∧
    (s.readReg rt = 0 → ∀ e ∈ (inspect t).memory, e.1 ≠ s.dataKey rs imm)

/-- R153: taken exactly when the two registers are equal, to `pc + 4 + imm * 4`; no delay slot, no
write; a decodable offset reaches `pc - 131068` to `pc + 131072`. -/
def Obligations.BranchEqualResult : Prop :=
  ∀ (rs rt : Reg) (imm : Int) (s : State), ∃ t, exec (.beq rs rt imm) s = .next t ∧
    Retires s t s.readReg s.memRead none
      (if s.readReg rs = s.readReg rt then s.pc + 4 + imm * 4 else s.pc + 4) ∧
    (immInRange imm = true → s.pc - 131068 ≤ t.pc ∧ t.pc ≤ s.pc + 131072)

/-- R154: as beq with the test inverted. -/
def Obligations.BranchNotEqualResult : Prop :=
  ∀ (rs rt : Reg) (imm : Int) (s : State), ∃ t, exec (.bne rs rt imm) s = .next t ∧
    Retires s t s.readReg s.memRead none
      (if s.readReg rs ≠ s.readReg rt then s.pc + 4 + imm * 4 else s.pc + 4) ∧
    (immInRange imm = true → s.pc - 131068 ≤ t.pc ∧ t.pc ≤ s.pc + 131072)

/-- R155: an unknown immediate opcode only advances the pc and is counted. -/
def Obligations.UnknownOpAdvances : Prop :=
  ∀ (op : BitVec 6) (rs rt : Reg) (imm : Int) (s : State),
    ∃ t, exec (.unknownOp op rs rt imm) s = .next t ∧ Retires s t s.readReg s.memRead none (s.pc + 4)

/-- R180: `pc <- (pc & 0xF0000000) | ((addr << 2) & 0x0FFFFFFF)` of the jump's own pc, no other effect.
For a negative pc, where R9 gives no `&`, `jumpTarget` is this model's choice (log entry 8). -/
def Obligations.JumpResult : Prop :=
  ∀ (addr : BitVec 26) (s : State),
    (∃ t, exec (.j addr) s = .next t ∧
      Retires s t s.readReg s.memRead none (jumpTarget s.pc addr)) ∧
    (0 ≤ s.pc → jumpTarget s.pc addr =
      (((s.pc.toNat &&& 0xF0000000) ||| ((addr.toNat <<< 2) &&& 0x0FFFFFFF) : Nat) : Int))

/-- R180, corner cases: from a 32-bit pc the target is a multiple of 4 in the pc's own 256 MiB region. -/
def Obligations.JumpStaysInRegion : Prop :=
  ∀ (addr : BitVec 26) (pc : Int), 0 ≤ pc → pc < 2 ^ 32 →
    jumpTarget pc addr % 4 = 0 ∧ jumpTarget pc addr / 2 ^ 28 = pc / 2 ^ 28 ∧
    jumpTarget pc addr % 2 ^ 28 = addr.toNat * 4

/-! ### The step -/

/-- R100, R105: a running machine whose fetched word decodes to `i` does `exec i` and reports an "ok"
record around it. -/
def Obligations.StepRunsDecodedInstruction : Prop :=
  ∀ (s : State) (w : Word) (i : Instr), s.halted = false → fetchWord s = some w → decode w = .instr i →
    step s = match exec i s with
      | .next t => .next { t with result := some (.ok s.pc w (.instr i) t.stepCount t.effect t.regs) }
      | .fault r => .fault r
      | .refused r => .refused r

/-- R101, R203: a halted machine answers status "halted" and nothing of it changes. (`e` leaves open what
the output field `effect` shows then: that is this model's choice, log entry 7; so in the statements below.) -/
def Obligations.HaltedStepChangesNothing : Prop :=
  ∀ s : State, s.halted = true → ∃ e, step s = .next { s with effect := e, result := some .halted }

/-- R102, R204: with `k = (pc - BASE) / 4` negative or at least `L` the step only sets `halted` and
reports the pc; otherwise the word `IMEM[k]` is fetched; and for an aligned pc it is in range exactly
from `BASE` to `BASE + 4*L - 4`. -/
def Obligations.FetchRangeRule : Prop :=
  ∀ s : State, s.halted = false →
    let k := (s.pc - s.cfg.base) / 4
    (k < 0 ∨ (s.cfg.imem.length : Int) ≤ k →
      ∃ e, step s = .next { s with halted := true, effect := e, result := some (.pcOutOfRange s.pc) }) ∧
    (0 ≤ k ∧ k < (s.cfg.imem.length : Int) →
      ∃ w, s.cfg.imem[k.toNat]? = some w ∧ fetchWord s = some w) ∧
    ((s.pc - s.cfg.base) % 4 = 0 → ((0 ≤ k ∧ k < (s.cfg.imem.length : Int)) ↔
      (s.cfg.base ≤ s.pc ∧ s.pc ≤ s.cfg.base + 4 * (s.cfg.imem.length : Int) - 4)))

/-- R55, R103: fetch is `IMEM[(pc - BASE) / 4]` for a pc inside the program, whatever the data memory
and the registers hold. -/
def Obligations.FetchReadsInstructionMemory : Prop :=
  ∀ (s : State) (k : Nat) (w : Word), s.pc = s.cfg.base + 4 * k → s.cfg.imem[k]? = some w →
    ∀ (m : Memory) (x : Regs), fetchWord { s with dmem := m, regs := x } = some w

/-- R106, R109: an "ok" step reports the pc before it, the word, the decoding, the new count, the effect
and the registers after the force of register 0, and counts 1; every other step counts nothing. -/
def Obligations.CommitCountsOkSteps : Prop :=
  ∀ s t : State, step s = .next t →
    (∃ w i, fetchWord s = some w ∧ decode w = .instr i ∧ t.stepCount = s.stepCount + 1 ∧
      t.readReg 0 = 0 ∧ t.result = some (.ok s.pc w (.instr i) t.stepCount t.effect t.regs)) ∨
    (t.stepCount = s.stepCount ∧ ∃ r, t.result = some r ∧ r.isOk = false)

/-- R28: `halted` is set by terminal steps only, never cleared by a step, checked before every step and
by the run, and false only again on a machine that load or reset builds. -/
def Obligations.HaltedFlagRule : Prop :=
  (∀ s t : State, step s = .next t →
    (t.halted = true ↔ (s.halted = true ∨ ∃ r, t.result = some r ∧ r.isTerminal = true))) ∧
  (∀ s : State, s.halted = true →
    (∃ e, step s = .next { s with effect := e, result := some .halted }) ∧
      ∀ n, run n s = ([], .next s)) ∧
  (∀ (p : Params) (words : List Int) (base : Option Int) (t : State),
    load p words base = .next t → t.halted = false) ∧
  (∀ s : State, (reload s).halted = false)

/-- R25: the pc changes only by + 4, by a taken branch, by a jump (from a non-negative pc), and at load
and reset. -/
def Obligations.PcChangesOnlySo : Prop :=
  (∀ (i : Instr) (s t : State), exec i s = .next t →
    (i.isControl = false → t.pc = s.pc + 4) ∧
    (∀ rs rt imm, i = .beq rs rt imm →
      t.pc = if s.readReg rs = s.readReg rt then s.pc + 4 + imm * 4 else s.pc + 4) ∧
    (∀ rs rt imm, i = .bne rs rt imm →
      t.pc = if s.readReg rs = s.readReg rt then s.pc + 4 else s.pc + 4 + imm * 4) ∧
    (∀ addr, i = .j addr → 0 ≤ s.pc →
      t.pc = (((s.pc.toNat &&& 0xF0000000) ||| ((addr.toNat <<< 2) &&& 0x0FFFFFFF) : Nat) : Int))) ∧
  (∀ s t : State, step s = .next t →
    (∃ w i u, fetchWord s = some w ∧ decode w = .instr i ∧ exec i s = .next u ∧ t.pc = u.pc) ∨
    (t.pc = s.pc ∧ ∃ r, t.result = some r ∧ r.isOk = false)) ∧
  (∀ (p : Params) (words : List Int) (base : Option Int) (t : State),
    load p words base = .next t → t.pc = t.cfg.base) ∧
  (∀ s : State, (reload s).pc = s.cfg.base)

/-- R23: no instruction changes a register but its destination (`rd`, `rt`, or none) and the forced
register 0. -/
def Obligations.OnlyDestinationChanges : Prop :=
  ∀ (i : Instr) (s t : State) (r : Reg), exec i s = .next t → r ≠ 0 → i.dest ≠ some r →
    t.readReg r = s.readReg r

/-- R22: register 0 is 0 after every dispatched instruction, whatever it held and whatever was written;
a lw into it still performs and reports its read. -/
def Obligations.RegisterZeroForced : Prop :=
  (∀ (i : Instr) (s t : State), exec i s = .next t → t.readReg 0 = 0) ∧
  (∀ (rs : Reg) (imm : Int) (s : State), ∃ t, exec (.lw rs 0 imm) s = .next t ∧
    t.effect = some (.memRead (s.dataKey rs imm) (s.memRead (s.dataKey rs imm))) ∧
    ∀ r, r ≠ 0 → t.readReg r = s.readReg r)

/-- R55, R58: only sw changes the data memory. -/
def Obligations.OnlyStoresChangeMemory : Prop :=
  ∀ (i : Instr) (s t : State), exec i s = .next t → (∀ rs rt imm, i ≠ .sw rs rt imm) → t.dmem = s.dmem

/-- R30, R33, R56: no step changes the base, the instruction memory or the parameters. -/
def Obligations.ConfigNeverChanges : Prop :=
  ∀ s t : State, step s = .next t → t.cfg = s.cfg

/-- R61: over any run the data memory is what the reported writes (R107, R108), taken in step order,
leave; so a read sees the latest store to its key, and otherwise the memory before the run. It rests on the
write record's holding the key and the value written, the spec's decision D14 (log entry 14, DESIGN CHOICE). -/
def Obligations.MemoryFollowsStores : Prop :=
  ∀ (n : Nat) (s t : State) (rs : List StepResult), s.dmem.wf → run n s = (rs, .next t) →
    ∀ a, t.memRead a = (rs.foldl memoryAfter s.memRead) a

/-- R61, W8: sw followed by lw at the same source register and immediate returns the stored value. -/
def Obligations.StoreThenLoad : Prop :=
  ∀ (rs rt rt' : Reg) (imm : Int) (s : State), Inv s →
    ∃ t u, exec (.sw rs rt imm) s = .next t ∧ exec (.lw rs rt' imm) t = .next u ∧
      u.effect = some (.memRead (s.dataKey rs imm) (s.readReg rt)) ∧
      (rt' ≠ 0 → u.readReg rt' = s.readReg rt)

/-- R22, R26, R33, R231: every step keeps the canonical memory, the zero of register 0, an admitted
configuration (by the spec's decision D5, log entry 11) and an aligned pc. -/
def Obligations.StepKeepsInvariant : Prop :=
  ∀ s t : State, Inv s → step s = .next t → Inv t

/-- R27, D4: an instruction is executed only at a multiple of 4 in 0 to 2^32 - 4. It rests on the unbounded
pc (D4, log entry 12) and the load's preconditions (D5, log entry 11), the spec's own decisions. -/
def Obligations.ExecutedPcInRange : Prop :=
  ∀ (s : State) (w : Word), Inv s → fetchWord s = some w → 0 ≤ s.pc ∧ s.pc ≤ 2 ^ 32 - 4 ∧ s.pc % 4 = 0

/-- R208, with the codes of R201 (the spec's decision D15, log entry 14): a step reports exactly one status, "halted"
before "pc out of range" before "ok". -/
def Obligations.StatusPriority : Prop :=
  ∀ s t : State, step s = .next t → ∃ r, t.result = some r ∧
    statusCode r = if s.halted = true then 1 else if fetchWord s = none then 2 else 0

/-- R202, R209: a terminal step freezes the machine as it was but for the halted flag. -/
def Obligations.TerminalStepFreezes : Prop :=
  ∀ (s t : State) (r : StepResult), step s = .next t → t.result = some r → r.isTerminal = true →
    ∃ e, t = { s with halted := true, effect := e, result := some r }

/-- R100, R135: a step is refused only at an unknown function code under the policy `refuse` (the spec's
decision D7, log entry 3), and then by that name; every other step answers a next state with a status. -/
def Obligations.StepNeverStops : Prop :=
  ∀ s : State,
    (∃ t r, step s = .next t ∧ t.result = some r) ∨
    (step s = .refused .unknownFunct ∧ s.cfg.unknownPolicy = .refuse ∧ s.halted = false ∧
      ∃ w rs rt rd shamt funct, fetchWord s = some w ∧
        decode w = .instr (.unknownFunct rs rt rd shamt funct))

/-- R114: a step reads nothing of what earlier steps reported. -/
def Obligations.ReportsAreNotRead : Prop :=
  ∀ (s : State) (e : Option Effect) (r : Option StepResult),
    step { s with effect := e, result := r } = step s

/-- R21, R83: what an instruction writes and where it goes depends on no register but its sources. -/
def Obligations.OnlySourcesAreRead : Prop :=
  ∀ (i : Instr) (s s' t t' : State), (∀ r ∈ i.sources, s.readReg r = s'.readReg r) → s.cfg = s'.cfg →
    s.pc = s'.pc → s.dmem = s'.dmem → exec i s = .next t → exec i s' = .next t' →
    t.pc = t'.pc ∧ t.dmem = t'.dmem ∧ t.effect = t'.effect ∧
      ∀ r, i.dest = some r → t.readReg r = t'.readReg r

/-! ### The bounded run -/

/-- R112: the run collects every result in order, checks `halted` before each call, includes the
halting step as its last element, never contains "halted", has length at most `n` and never fails
(a refused step, under the policy `refuse`, is this model's own outcome, log entry 3). -/
def Obligations.BoundedRunRule : Prop :=
  ∀ (n : Nat) (s : State),
    run 0 s = ([], .next s) ∧ (s.halted = true → run n s = ([], .next s)) ∧
    (∀ t r, s.halted = false → step s = .next t → t.result = some r →
      run (n + 1) s = (r :: (run n t).1, (run n t).2)) ∧
    (run n s).1.length ≤ n ∧ StepResult.halted ∉ (run n s).1 ∧
    (∀ r ∈ (run n s).1.dropLast, r.isOk = true) ∧
    (∀ t, s.halted = false → (run n s).2 = .next t →
      (t.halted = true ↔ ∃ r, (run n s).1.getLast? = some r ∧ r.isTerminal = true)) ∧
    (s.cfg.unknownPolicy = .nop → ∃ t, (run n s).2 = .next t)

/-- R113: a run of `n` steps that finds the machine still running, as every run of a program that loops
for ever does, is exactly one with `n` "ok" results, and each of them was counted. -/
def Obligations.UnendingRunFillsBudget : Prop :=
  ∀ (n : Nat) (s t : State) (rs : List StepResult), s.halted = false → run n s = (rs, .next t) →
    (t.halted = false ↔ (rs.length = n ∧ ∀ r ∈ rs, r.isOk = true)) ∧
    (t.halted = false → t.stepCount = s.stepCount + n)

/-- W9 with its precondition (C10): a loaded program without branches and jumps, under the policy `nop`
(the spec's decision D7, log entry 3; which words branch or jump is its decision D1, D2, log entry 9), run
with a budget above its length `L`, gives exactly `L` "ok" results and then one "pc out of range". -/
def Obligations.StraightLineTerminates : Prop :=
  ∀ (p : Params) (words : List Int) (base : Option Int) (s : State) (n : Nat),
    load p words base = .next s → p.unknownPolicy = .nop →
    (∀ w ∈ s.cfg.imem, ∀ i, decode w = .instr i → i.isControl = false) → words.length < n →
    ∃ rs t, run n s = (rs ++ [.pcOutOfRange (s.cfg.base + 4 * words.length)], .next t) ∧
      rs.length = words.length ∧ (∀ r ∈ rs, r.isOk = true) ∧ t.halted = true ∧
      t.stepCount = words.length
end

