-- ==== Sys2Proof/Laws/Encoding.lean ====
section
/-! SUPPORT. The fields of a word built by the encoder are the fields it was built from. -/

namespace Sys2Proof

section Register
variable (rs rt rd shamt : Reg) (funct : BitVec 6)

@[simp] theorem fieldOp_registerWord : fieldOp (registerWord rs rt rd shamt funct) = 0 := by
  ext i hi; interval_cases i <;> simp [fieldOp, registerWord]
@[simp] theorem fieldRs_registerWord : fieldRs (registerWord rs rt rd shamt funct) = rs := by
  ext i hi; interval_cases i <;> simp [fieldRs, registerWord]
@[simp] theorem fieldRt_registerWord : fieldRt (registerWord rs rt rd shamt funct) = rt := by
  ext i hi; interval_cases i <;> simp [fieldRt, registerWord]
@[simp] theorem fieldRd_registerWord : fieldRd (registerWord rs rt rd shamt funct) = rd := by
  ext i hi; interval_cases i <;> simp [fieldRd, registerWord]
@[simp] theorem fieldShamt_registerWord : fieldShamt (registerWord rs rt rd shamt funct) = shamt := by
  ext i hi; interval_cases i <;> simp [fieldShamt, registerWord]
@[simp] theorem fieldFunct_registerWord : fieldFunct (registerWord rs rt rd shamt funct) = funct := by
  ext i hi; interval_cases i <;> simp [fieldFunct, registerWord]

end Register

section Immediate
variable (op : BitVec 6) (rs rt : Reg) (imm : Int)

@[simp] theorem fieldOp_immediateWord : fieldOp (immediateWord op rs rt imm) = op := by
  ext i hi; interval_cases i <;> simp [fieldOp, immediateWord]
@[simp] theorem fieldRs_immediateWord : fieldRs (immediateWord op rs rt imm) = rs := by
  ext i hi; interval_cases i <;> simp [fieldRs, immediateWord]
@[simp] theorem fieldRt_immediateWord : fieldRt (immediateWord op rs rt imm) = rt := by
  ext i hi; interval_cases i <;> simp [fieldRt, immediateWord]
@[simp] theorem fieldImm_immediateWord : fieldImm (immediateWord op rs rt imm) = BitVec.ofInt 16 imm := by
  ext i hi; interval_cases i <;> simp [fieldImm, immediateWord]

end Immediate

@[simp] theorem fieldOp_jumpWord (op : BitVec 6) (addr : BitVec 26) : fieldOp (jumpWord op addr) = op := by
  ext i hi; interval_cases i <;> simp [fieldOp, jumpWord]
@[simp] theorem fieldAddr_jumpWord (op : BitVec 6) (addr : BitVec 26) :
    fieldAddr (jumpWord op addr) = addr := by
  ext i hi; interval_cases i <;> simp [fieldAddr, jumpWord]

end Sys2Proof
end

