-- ==== Sys2Proof/Laws/Memory.lean ====
section
/-! SUPPORT. The laws of the data memory: reading after writing, and the canonical form. -/

namespace Sys2Proof.Machine

@[simp] theorem Memory.read_nil (a : Int) : Memory.read [] a = 0 := rfl

theorem Memory.read_cons (k : Int) (v : Word) (m : Memory) (a : Int) :
    Memory.read ((k, v) :: m) a = if a = k then v else m.read a := rfl

/-- A key below every listed key, or otherwise unlisted, reads as never written. -/
theorem Memory.read_of_unlisted {m : Memory} {a : Int} (h : ∀ p ∈ m, p.1 ≠ a) : m.read a = 0 := by
  induction m with
  | nil => rfl
  | cons p m ih =>
    obtain ⟨k, v⟩ := p
    have hk : a ≠ k := fun e => h (k, v) (by simp) e.symm
    rw [Memory.read_cons, if_neg hk]
    exact ih fun p hp => h p (by simp [hp])

/-- What `cons` leaves reads as the entry it was given, where the rest does not list its key. -/
theorem Memory.read_consEntry_self {m : Memory} {a : Int} (v : Word) (h : ∀ p ∈ m, p.1 ≠ a) :
    (Memory.cons a v m).read a = v := by
  unfold Memory.cons
  split
  · rename_i hv
    rw [Memory.read_of_unlisted h, hv]
    rfl
  · simp [Memory.read_cons]

theorem Memory.read_consEntry_other (m : Memory) {a b : Int} (v : Word) (h : b ≠ a) :
    (Memory.cons a v m).read b = m.read b := by
  unfold Memory.cons
  split
  · rfl
  · simp [Memory.read_cons, h]

/-- A write leaves every other key alone (R52), in any memory. -/
theorem Memory.read_write_other (m : Memory) {a b : Int} (v : Word) (h : b ≠ a) :
    (m.write a v).read b = m.read b := by
  induction m with
  | nil => simp [Memory.write, Memory.read_consEntry_other _ _ h]
  | cons p m ih =>
    obtain ⟨k, u⟩ := p
    simp only [Memory.write]
    split
    · exact Memory.read_consEntry_other _ v h
    · split
      · rename_i hk
        rw [Memory.read_consEntry_other _ v h, Memory.read_cons, if_neg (hk ▸ h)]
      · simp only [Memory.read_cons, ih]

/-- In canonical form a written key reads as the value written (R51, R52). -/
theorem Memory.read_write_self {m : Memory} (hm : m.wf) (a : Int) (v : Word) :
    (m.write a v).read a = v := by
  induction m with
  | nil => exact Memory.read_consEntry_self v (by simp)
  | cons p m ih =>
    obtain ⟨k, u⟩ := p
    obtain ⟨hs, hn⟩ := hm
    rw [List.pairwise_cons] at hs
    simp only [Memory.write]
    split
    · rename_i hk
      refine Memory.read_consEntry_self v fun q hq => ?_
      rcases List.mem_cons.1 hq with rfl | hq
      · exact ne_of_gt hk
      · exact ne_of_gt (lt_trans hk (hs.1 q hq))
    · split
      · rename_i hk
        exact Memory.read_consEntry_self v fun q hq => hk ▸ ne_of_gt (hs.1 q hq)
      · rename_i hk
        rw [Memory.read_cons, if_neg hk]
        exact ih ⟨hs.2, fun q hq => hn q (by simp [hq])⟩

/-- Reading after writing, in one statement. -/
theorem Memory.read_write {m : Memory} (hm : m.wf) (a b : Int) (v : Word) :
    (m.write a v).read b = if b = a then v else m.read b := by
  split
  · subst_vars; exact Memory.read_write_self hm _ v
  · exact Memory.read_write_other m v ‹_›

theorem Memory.wf_nil : Memory.wf [] := ⟨List.Pairwise.nil, by simp⟩

theorem Memory.wf_consEntry {m : Memory} (hm : m.wf) {a : Int} (v : Word) (h : ∀ p ∈ m, a < p.1) :
    (Memory.cons a v m).wf := by
  unfold Memory.cons
  split
  · exact hm
  · refine ⟨List.pairwise_cons.2 ⟨h, hm.1⟩, fun p hp => ?_⟩
    rcases List.mem_cons.1 hp with rfl | hp
    · assumption
    · exact hm.2 p hp

/-- Every key of a written memory is the written one or was listed before. -/
theorem Memory.key_of_mem_write {m : Memory} {a : Int} {v : Word} {p : Int × Word}
    (hp : p ∈ m.write a v) : p.1 = a ∨ p ∈ m := by
  have entry : ∀ l : Memory, p ∈ Memory.cons a v l → p.1 = a ∨ p ∈ l := by
    intro l hl
    unfold Memory.cons at hl
    split at hl
    · exact Or.inr hl
    · rcases List.mem_cons.1 hl with rfl | hl
      · exact Or.inl rfl
      · exact Or.inr hl
  induction m with
  | nil => exact entry [] hp
  | cons q m ih =>
    obtain ⟨k, u⟩ := q
    simp only [Memory.write] at hp
    split at hp
    · exact entry _ hp
    · split at hp
      · exact (entry _ hp).imp_right fun h => by simp [h]
      · rcases List.mem_cons.1 hp with rfl | hp
        · exact Or.inr (by simp)
        · exact (ih hp).imp_right fun h => by simp [h]

/-- The one operation that changes a memory keeps its canonical form. -/
theorem Memory.wf_write {m : Memory} (hm : m.wf) (a : Int) (v : Word) : (m.write a v).wf := by
  induction m with
  | nil => exact Memory.wf_consEntry hm v (by simp)
  | cons p m ih =>
    obtain ⟨k, u⟩ := p
    obtain ⟨hs, hn⟩ := hm
    rw [List.pairwise_cons] at hs
    have hm' : Memory.wf m := ⟨hs.2, fun q hq => hn q (by simp [hq])⟩
    simp only [Memory.write]
    split
    · rename_i hk
      refine Memory.wf_consEntry ⟨List.pairwise_cons.2 hs, hn⟩ v fun q hq => ?_
      rcases List.mem_cons.1 hq with rfl | hq
      · exact hk
      · exact lt_trans hk (hs.1 q hq)
    · split
      · rename_i hk
        exact Memory.wf_consEntry hm' v fun q hq => hk ▸ hs.1 q hq
      · refine ⟨List.pairwise_cons.2 ⟨fun q hq => ?_, (ih hm').1⟩, fun q hq => ?_⟩
        · rcases Memory.key_of_mem_write hq with h | h
          · have : k < q.1 := by omega
            exact this
          · exact hs.1 q h
        · rcases List.mem_cons.1 hq with rfl | hq
          · exact hn _ (by simp)
          · exact (ih hm').2 q hq

end Sys2Proof.Machine
end

