-- ==== Sys2Proof/Laws/State.lean ====
section
/-! SUPPORT. One lemma per field of State per update of it, each true by unfolding. -/

namespace Sys2Proof.Machine

variable (s : State) (r : Reg) (v : Word) (a : Int) (e : Option Effect) (p : Int) (q : StepResult)

@[simp] theorem State.writeReg_cfg : (s.writeReg r v).cfg = s.cfg := rfl
@[simp] theorem State.writeReg_pc : (s.writeReg r v).pc = s.pc := rfl
@[simp] theorem State.writeReg_dmem : (s.writeReg r v).dmem = s.dmem := rfl
@[simp] theorem State.writeReg_stepCount : (s.writeReg r v).stepCount = s.stepCount := rfl
@[simp] theorem State.writeReg_halted : (s.writeReg r v).halted = s.halted := rfl
@[simp] theorem State.writeReg_effect : (s.writeReg r v).effect = s.effect := rfl
@[simp] theorem State.writeReg_result : (s.writeReg r v).result = s.result := rfl
@[simp] theorem State.writeReg_memRead : (s.writeReg r v).memRead a = s.memRead a := rfl

@[simp] theorem State.memWrite_cfg : (s.memWrite a v).cfg = s.cfg := rfl
@[simp] theorem State.memWrite_regs : (s.memWrite a v).regs = s.regs := rfl
@[simp] theorem State.memWrite_readReg : (s.memWrite a v).readReg r = s.readReg r := rfl
@[simp] theorem State.memWrite_pc : (s.memWrite a v).pc = s.pc := rfl
@[simp] theorem State.memWrite_dmem : (s.memWrite a v).dmem = s.dmem.write a v := rfl
@[simp] theorem State.memWrite_stepCount : (s.memWrite a v).stepCount = s.stepCount := rfl
@[simp] theorem State.memWrite_halted : (s.memWrite a v).halted = s.halted := rfl
@[simp] theorem State.memWrite_effect : (s.memWrite a v).effect = s.effect := rfl
@[simp] theorem State.memWrite_result : (s.memWrite a v).result = s.result := rfl

@[simp] theorem committed_cfg : (committed s e p).cfg = s.cfg := rfl
@[simp] theorem committed_pc : (committed s e p).pc = p := rfl
@[simp] theorem committed_dmem : (committed s e p).dmem = s.dmem := rfl
@[simp] theorem committed_memRead : (committed s e p).memRead a = s.memRead a := rfl
@[simp] theorem committed_stepCount : (committed s e p).stepCount = s.stepCount + 1 := rfl
@[simp] theorem committed_halted : (committed s e p).halted = s.halted := rfl
@[simp] theorem committed_effect : (committed s e p).effect = e := rfl
@[simp] theorem committed_result : (committed s e p).result = s.result := rfl

@[simp] theorem raiseStatus_cfg : (raiseStatus s q).cfg = s.cfg := rfl
@[simp] theorem raiseStatus_regs : (raiseStatus s q).regs = s.regs := rfl
@[simp] theorem raiseStatus_readReg : (raiseStatus s q).readReg r = s.readReg r := rfl
@[simp] theorem raiseStatus_pc : (raiseStatus s q).pc = s.pc := rfl
@[simp] theorem raiseStatus_dmem : (raiseStatus s q).dmem = s.dmem := rfl
@[simp] theorem raiseStatus_memRead : (raiseStatus s q).memRead a = s.memRead a := rfl
@[simp] theorem raiseStatus_stepCount : (raiseStatus s q).stepCount = s.stepCount := rfl
@[simp] theorem raiseStatus_halted : (raiseStatus s q).halted = true := rfl
@[simp] theorem raiseStatus_effect : (raiseStatus s q).effect = none := rfl
@[simp] theorem raiseStatus_result : (raiseStatus s q).result = some q := rfl

@[simp] theorem reportHalted_cfg : (reportHalted s).cfg = s.cfg := rfl
@[simp] theorem reportHalted_regs : (reportHalted s).regs = s.regs := rfl
@[simp] theorem reportHalted_readReg : (reportHalted s).readReg r = s.readReg r := rfl
@[simp] theorem reportHalted_pc : (reportHalted s).pc = s.pc := rfl
@[simp] theorem reportHalted_dmem : (reportHalted s).dmem = s.dmem := rfl
@[simp] theorem reportHalted_memRead : (reportHalted s).memRead a = s.memRead a := rfl
@[simp] theorem reportHalted_stepCount : (reportHalted s).stepCount = s.stepCount := rfl
@[simp] theorem reportHalted_halted : (reportHalted s).halted = s.halted := rfl
@[simp] theorem reportHalted_effect : (reportHalted s).effect = none := rfl
@[simp] theorem reportHalted_result : (reportHalted s).result = some .halted := rfl

section Report
variable (w : Word) (d : Decoded)

@[simp] theorem reportOk_cfg : (reportOk p w d s).cfg = s.cfg := rfl
@[simp] theorem reportOk_regs : (reportOk p w d s).regs = s.regs := rfl
@[simp] theorem reportOk_readReg : (reportOk p w d s).readReg r = s.readReg r := rfl
@[simp] theorem reportOk_pc : (reportOk p w d s).pc = s.pc := rfl
@[simp] theorem reportOk_dmem : (reportOk p w d s).dmem = s.dmem := rfl
@[simp] theorem reportOk_memRead : (reportOk p w d s).memRead a = s.memRead a := rfl
@[simp] theorem reportOk_stepCount : (reportOk p w d s).stepCount = s.stepCount := rfl
@[simp] theorem reportOk_halted : (reportOk p w d s).halted = s.halted := rfl
@[simp] theorem reportOk_effect : (reportOk p w d s).effect = s.effect := rfl
@[simp] theorem reportOk_result :
    (reportOk p w d s).result = some (.ok p w d s.stepCount s.effect s.regs) := rfl

end Report

end Sys2Proof.Machine
end

