-- ==== Sys2Proof/Laws/Ops.lean ====
section
/-! SUPPORT. What each shared operation does, said once: registers, commit, the meanings' common end. -/

namespace Sys2Proof.Machine

/-- `wrap32` as an integer (R9). -/
theorem wrap32_toNat (v : Int) : ((wrap32 v).toNat : Int) = v % 4294967296 := by
  simp only [wrap32, BitVec.toNat_ofInt]
  omega

/-- A register write seen through the register read (R11). -/
@[simp] theorem State.readReg_writeReg (s : State) (r q : Reg) (v : Word) :
    (s.writeReg r v).readReg q = if q = r then v else s.readReg q := by
  simp only [State.readReg, State.writeReg, Vector.getElem_set, BitVec.toNat_inj, eq_comm]

/-- The commit forces register 0 and keeps every other register (R106). -/
@[simp] theorem committed_readReg (s : State) (e : Option Effect) (p : Int) (q : Reg) :
    (committed s e p).readReg q = if q = 0 then 0 else s.readReg q :=
  State.readReg_writeReg s 0 q 0

/-- Everything `commit` can do. -/
theorem commit_next {s t : State} {e : Option Effect} {p : Int} (h : commit s e p = .next t) :
    t = committed s e p := by
  cases h; rfl

/-- A commit with the registers and memory of `s` retires with them unchanged. -/
theorem retires_committed (s : State) (e : Option Effect) (p : Int) :
    Retires s (committed s e p) s.readReg s.memRead e p :=
  ⟨committed_readReg s e p, fun _ => rfl, rfl, rfl, rfl, rfl, rfl, rfl⟩

/-- A commit after one register write. -/
theorem retires_writeReg (s : State) (r : Reg) (v : Word) (e : Option Effect) (p : Int) :
    Retires s (committed (s.writeReg r v) e p) (withReg s r v) s.memRead e p :=
  ⟨fun q => by simp [withReg], fun _ => rfl, rfl, rfl, rfl, rfl, rfl, rfl⟩

/-- A commit after one memory write. -/
theorem retires_memWrite {s : State} (hs : s.dmem.wf) (a : Int) (v : Word) (e : Option Effect) (p : Int) :
    Retires s (committed (s.memWrite a v) e p) s.readReg (fun b => if b = a then v else s.memRead b) e p :=
  ⟨committed_readReg _ e p, fun b => Memory.read_write hs a b v, rfl, rfl, rfl, rfl, rfl, rfl⟩

end Sys2Proof.Machine
end

