-- ==== Sys2Proof/Laws/Step.lean ====
section
/-! SUPPORT. What a dispatch and a step can do, said once, for the invariants to cite. -/

namespace Sys2Proof.Machine

/-- Every word decodes to one of the thirteen forms (R80): the two kept arms are never answered. -/
theorem decode_instr (w : Word) : ∃ i, decode w = .instr i := by
  unfold decode
  split
  · exact ⟨_, rfl⟩
  · rename_i h
    have : fieldOp w = opJ := by
      by_contra hj
      simp [formatOf, jumpSet, hj] at h
      split at h <;> simp at h
    exact ⟨.j (fieldAddr w), by simp [jumpDecoded, this]⟩
  · exact ⟨_, rfl⟩

/-- A dispatch that answers a next state is a commit after at most one write of `s`. -/
theorem exec_next {i : Instr} {s t : State} (h : exec i s = .next t) :
    ∃ u e p, t = committed u e p ∧
      (u = s ∨ (∃ r v, i.dest = some r ∧ u = s.writeReg r v) ∨
        ∃ rs rt imm, i = .sw rs rt imm ∧ u = s.memWrite (s.dataKey rs imm) (s.readReg rt)) := by
  cases i with
  | add rs rt rd shamt => exact ⟨_, _, _, commit_next h, .inr (.inl ⟨_, _, rfl, rfl⟩)⟩
  | sub rs rt rd shamt => exact ⟨_, _, _, commit_next h, .inr (.inl ⟨_, _, rfl, rfl⟩)⟩
  | and rs rt rd shamt => exact ⟨_, _, _, commit_next h, .inr (.inl ⟨_, _, rfl, rfl⟩)⟩
  | or rs rt rd shamt => exact ⟨_, _, _, commit_next h, .inr (.inl ⟨_, _, rfl, rfl⟩)⟩
  | slt rs rt rd shamt => exact ⟨_, _, _, commit_next h, .inr (.inl ⟨_, _, rfl, rfl⟩)⟩
  | unknownFunct rs rt rd shamt funct =>
    simp only [exec, execUnknownFunct] at h
    split at h
    · exact ⟨_, _, _, commit_next h, .inl rfl⟩
    · cases h
  | addi rs rt imm => exact ⟨_, _, _, commit_next h, .inr (.inl ⟨_, _, rfl, rfl⟩)⟩
  | lw rs rt imm => exact ⟨_, _, _, commit_next h, .inr (.inl ⟨_, _, rfl, rfl⟩)⟩
  | sw rs rt imm => exact ⟨_, _, _, commit_next h, .inr (.inr ⟨_, _, _, rfl, rfl⟩)⟩
  | beq rs rt imm => exact ⟨_, _, _, commit_next h, .inl rfl⟩
  | bne rs rt imm => exact ⟨_, _, _, commit_next h, .inl rfl⟩
  | unknownOp op rs rt imm => exact ⟨_, _, _, commit_next h, .inl rfl⟩
  | j addr => exact ⟨_, _, _, commit_next h, .inl rfl⟩

/-- Everything a step that answers a next state can have done (R100): the halted status, the
out-of-range status, or one dispatched instruction with its record. -/
theorem step_next {s t : State} (h : step s = .next t) :
    (s.halted = true ∧ t = reportHalted s) ∨
    (s.halted = false ∧ fetchWord s = none ∧ t = raiseStatus s (.pcOutOfRange s.pc)) ∨
    (s.halted = false ∧ ∃ w i u, fetchWord s = some w ∧ decode w = .instr i ∧ exec i s = .next u ∧
      t = reportOk s.pc w (.instr i) u) := by
  unfold step cycle at h
  split at h
  · rename_i hh
    cases h
    exact .inl ⟨hh, rfl⟩
  · rename_i hh
    have hf : s.halted = false := by simpa using hh
    split at h
    · rename_i hw
      cases h
      exact .inr (.inl ⟨hf, hw, rfl⟩)
    · rename_i w hw
      obtain ⟨i, hi⟩ := decode_instr w
      simp only [hi] at h
      split at h
      · rename_i u hu
        cases h
        exact .inr (.inr ⟨hf, w, i, u, hw, hi, hu, rfl⟩)
      · cases h
      · cases h

/-- A fetch index is in the program, and the pc is within its word (R102). -/
theorem fetchIndex_some {s : State} {k : Nat} (h : fetchIndex s = some k) :
    k < s.cfg.imem.length ∧ s.cfg.base + 4 * k ≤ s.pc ∧ s.pc < s.cfg.base + 4 * k + 4 := by
  unfold fetchIndex at h
  simp only at h
  split at h
  · cases h
  · split at h
    · cases h
      omega
    · cases h

/-- The word placed by `withFetchWord` is the one the next step fetches. -/
theorem fetchWord_placeWord (s : State) (w : Word) : fetchWord (placeWord s w) = some w := by
  unfold placeWord
  split
  · rename_i k hk
    have hlt : k < s.cfg.imem.length := (fetchIndex_some hk).1
    have hk2 : fetchIndex { s with cfg := { s.cfg with imem := s.cfg.imem.set k w }, halted := false } = some k := by
      simpa [fetchIndex] using hk
    simp [fetchWord, hk2, hlt]
  · simp [fetchWord, fetchIndex]

@[simp] theorem placeWord_halted (s : State) (w : Word) : (placeWord s w).halted = false := by
  unfold placeWord
  split <;> rfl

end Sys2Proof.Machine
end

