-- ==== Sys2Proof/Laws/HostOps.lean ====
section
/-! SUPPORT. What a load and a bounded run can answer, said once. -/

namespace Sys2Proof.Machine

/-- An admitted load builds the initial state of its configuration, and no other load builds one. -/
theorem load_next {p : Params} {words : List Int} {base : Option Int} {t : State}
    (h : load p words base = .next t) :
    loadAdmitted words (base.getD p.defaultBase) ∧
      t = State.initial { base := base.getD p.defaultBase, imem := words.map wrap32,
                          eaWrap := p.eaWrap, unknownPolicy := p.unknownPolicy } := by
  simp only [load] at h
  split at h
  · cases h
    exact ⟨‹_›, rfl⟩
  · cases h

/-- A step that answers a next state reports a result. -/
theorem step_result {s t : State} (h : step s = .next t) : ∃ r, t.result = some r := by
  rcases step_next h with ⟨_, rfl⟩ | ⟨_, _, rfl⟩ | ⟨_, _, _, _, _, _, _, rfl⟩ <;> exact ⟨_, rfl⟩

/-- A run that ends in a state either made no step or made a first one and ran on from there. -/
theorem run_next {n : Nat} {s t : State} {rs : List StepResult} (h : run n s = (rs, .next t)) :
    (rs = [] ∧ t = s ∧ (n = 0 ∨ s.halted = true)) ∨
    ∃ m u r rs', n = m + 1 ∧ s.halted = false ∧ step s = .next u ∧ u.result = some r ∧
      rs = r :: rs' ∧ run m u = (rs', .next t) := by
  cases n with
  | zero =>
    cases h
    exact .inl ⟨rfl, rfl, .inl rfl⟩
  | succ m =>
    cases hh : s.halted with
    | true =>
      simp only [run, hh, if_true] at h
      cases h
      exact .inl ⟨rfl, rfl, .inr rfl⟩
    | false =>
      cases hs : step s with
      | next u =>
        obtain ⟨r, hr⟩ := step_result hs
        simp only [run, hh, hs, hr, Option.toList, Bool.false_eq_true, if_false, Prod.mk.injEq] at h
        exact .inr ⟨m, u, r, (run m u).1, rfl, rfl, rfl, hr, h.1.symm, Prod.ext rfl h.2⟩
      | fault r => cases r
      | refused r => simp [run, hh, hs] at h

end Sys2Proof.Machine
end

