-- ==== Sys2Proof/Laws/PerInstr.lean ====
section
/-! SUPPORT. Statements made per instruction: the family `OwnFormat`. -/

namespace Sys2Proof.Laws.OwnFormat

/-- The word of a well-formed instruction is classified by its opcode into the instruction's own
format (spec/30_encoding.md R72). -/
def Statement (i : Instr) : Prop :=
  i.wellFormed = true → formatOf (fieldOp (encode i)) = i.format

theorem add (rs rt rd shamt : Reg) : Statement (.add rs rt rd shamt) := fun _ => by
  simp [encode, formatOf, Instr.format]

theorem sub (rs rt rd shamt : Reg) : Statement (.sub rs rt rd shamt) := fun _ => by
  simp [encode, formatOf, Instr.format]

theorem and (rs rt rd shamt : Reg) : Statement (.and rs rt rd shamt) := fun _ => by
  simp [encode, formatOf, Instr.format]

theorem or (rs rt rd shamt : Reg) : Statement (.or rs rt rd shamt) := fun _ => by
  simp [encode, formatOf, Instr.format]

theorem slt (rs rt rd shamt : Reg) : Statement (.slt rs rt rd shamt) := fun _ => by
  simp [encode, formatOf, Instr.format]

theorem unknownFunct (rs rt rd shamt : Reg) (funct : BitVec 6) :
    Statement (.unknownFunct rs rt rd shamt funct) := fun _ => by
  simp [encode, formatOf, Instr.format]

theorem addi (rs rt : Reg) (imm : Int) : Statement (.addi rs rt imm) := fun _ => by
  simp only [encode, fieldOp_immediateWord, Instr.format]; decide

theorem lw (rs rt : Reg) (imm : Int) : Statement (.lw rs rt imm) := fun _ => by
  simp only [encode, fieldOp_immediateWord, Instr.format]; decide

theorem sw (rs rt : Reg) (imm : Int) : Statement (.sw rs rt imm) := fun _ => by
  simp only [encode, fieldOp_immediateWord, Instr.format]; decide

theorem beq (rs rt : Reg) (imm : Int) : Statement (.beq rs rt imm) := fun _ => by
  simp only [encode, fieldOp_immediateWord, Instr.format]; decide

theorem bne (rs rt : Reg) (imm : Int) : Statement (.bne rs rt imm) := fun _ => by
  simp only [encode, fieldOp_immediateWord, Instr.format]; decide

theorem unknownOp (op : BitVec 6) (rs rt : Reg) (imm : Int) :
    Statement (.unknownOp op rs rt imm) := fun h => by
  have h : (op ≠ 0 ∧ op ∉ jumpSet) ∧ op ∉ knownOps := by
    simp only [Instr.wellFormed, opUnknown, Bool.and_eq_true, decide_eq_true_eq] at h
    exact h.1
  simp only [encode, fieldOp_immediateWord, formatOf, if_neg h.1.1, if_neg h.1.2, Instr.format]

theorem j (addr : BitVec 26) : Statement (.j addr) := fun _ => by
  simp only [encode, fieldOp_jumpWord, Instr.format]; decide

end Sys2Proof.Laws.OwnFormat
end

