-- ==== Sys2Proof/Tests/Slice0.lean ====
section
/-! SUPPORT. Tests of the model, with expected values from spec/95_test_vectors.md or worked by hand from
the rules, and for every statement with hypotheses a witness that meets them. -/

namespace Sys2Proof.Tests

open Sys2Proof.Machine

/-! ### Ill-formed terms are refused -/

theorem test_wf_refuses_named_funct : (Instr.unknownFunct 1 2 3 0 0x20).wellFormed = false := by decide
theorem test_wf_refuses_register_opcode : (Instr.unknownOp 0 1 2 0).wellFormed = false := by decide
theorem test_wf_refuses_jump_opcode : (Instr.unknownOp 2 1 2 0).wellFormed = false := by decide
theorem test_wf_refuses_named_opcode : (Instr.unknownOp 0x23 1 2 0).wellFormed = false := by decide
theorem test_wf_refuses_high_immediate : (Instr.addi 1 2 32768).wellFormed = false := by decide
theorem test_wf_refuses_low_immediate : (Instr.lw 1 2 (-32769)).wellFormed = false := by decide

/-! ### Every constructor decodes from a word written out bit by bit (R73 to R78) -/

-- op 000000, rs 00010, rt 00001, rd 00011, shamt 00000, funct 100000 (W2)
theorem test_decode_add : decode 0b00000000010000010001100000100000 = .instr (.add 2 1 3 0) := by decide
-- funct 100010
theorem test_decode_sub : decode 0b00000000001000100001100000100010 = .instr (.sub 1 2 3 0) := by decide
-- funct 100100
theorem test_decode_and : decode 0b00000000001000100001100000100100 = .instr (.and 1 2 3 0) := by decide
-- funct 100101
theorem test_decode_or : decode 0b00000000001000100001100000100101 = .instr (.or 1 2 3 0) := by decide
-- funct 101010
theorem test_decode_slt : decode 0b00000000001000100001100000101010 = .instr (.slt 1 2 3 0) := by decide
-- 0x000007C0: funct 000000, shamt 11111
theorem test_decode_unknownFunct : decode 0b00000000000000000000011111000000 = .instr (.unknownFunct 0 0 0 31 0) := by
  decide
-- 0x000007E0: a shamt is ignored (R81)
theorem test_decode_add_shamt : decode 0x000007E0 = .instr (.add 0 0 0 31) := by decide
-- op 001000, rs 00001, rt 00001, imm 0xFFFF
theorem test_decode_addi : decode 0b00100000001000011111111111111111 = .instr (.addi 1 1 (-1)) := by decide
-- op 100011, rs 00001, rt 00011, imm 4
theorem test_decode_lw : decode 0b10001100001000110000000000000100 = .instr (.lw 1 3 4) := by decide
-- op 101011, rs 00001, rt 00010, imm 0xFF38 (P2)
theorem test_decode_sw : decode 0b10101100001000101111111100111000 = .instr (.sw 1 2 (-200)) := by decide
-- op 000100, rs 00001, rt 00010, imm 2 (W7)
theorem test_decode_beq : decode 0b00010000001000100000000000000010 = .instr (.beq 1 2 2) := by decide
-- op 000101, rs 00001, rt 00000, imm 0xFFFD
theorem test_decode_bne : decode 0b00010100001000001111111111111101 = .instr (.bne 1 0 (-3)) := by decide
-- op 111111, all ones
theorem test_decode_unknownOp : decode 0xFFFFFFFF = .instr (.unknownOp 63 31 31 (-1)) := by decide
-- op 000011 is no jump here (R77)
theorem test_decode_jal_word : decode 0x0C000000 = .instr (.unknownOp 3 0 0 0) := by decide
-- op 000010, addr all ones
theorem test_decode_j : decode 0b00001011111111111111111111111111 = .instr (.j 0x3FFFFFF) := by decide
-- W3
theorem test_sign_extension : sext16 0xFFFF = -1 ∧ sext16 0x7FFF = 32767 ∧ sext16 0x8000 = -32768 := by decide
-- R181: the kept arm, for a code outside the jump table
theorem test_unknown_jump_arm : jumpDecoded 3 5 = .unknownJump 3 5 := by decide

/-! ### One dispatched instruction on a small state -/

/-- The reset state with some registers set. -/
def withRegs (rs : List (Reg × Word)) : State :=
  rs.foldl (fun s p => s.writeReg p.1 p.2) State.reset

/-- The state after a dispatched instruction, or the state before it where it has no next one. -/
def after (i : Instr) (s : State) : State :=
  match exec i s with
  | .next t => t
  | .fault _ => s
  | .refused _ => s

/-- The state after a step, or the state before it where it has no next one. -/
def stepped (s : State) : State :=
  match step s with
  | .next t => t
  | .fault _ => s
  | .refused _ => s

/-- A machine loaded at the default base with the policy and address mode given. -/
def machine (words : List Word) (eaWrap : Bool) (policy : UnknownPolicy) : State :=
  State.initial { base := 0x00400000, imem := words, eaWrap := eaWrap, unknownPolicy := policy }

-- W5
theorem test_add_wraps : (after (.add 2 1 3 0) (withRegs [(2, 0xFFFFFFFF), (1, 1)])).readReg 3 = 0 := by decide
-- 2.2: add $1,$1,$1 reads the old value
theorem test_add_same_register : (after (.add 1 1 1 0) (withRegs [(1, 3)])).readReg 1 = 6 := by decide
-- 2.2
theorem test_sub_wraps : (after (.sub 1 2 3 0) (withRegs [(1, 1), (2, 0xFFFFFFFF)])).readReg 3 = 2 := by decide
theorem test_sub_no_trap :
    (after (.sub 1 2 3 0) (withRegs [(1, 0x80000000), (2, 1)])).readReg 3 = 0x7FFFFFFF := by decide
theorem test_and_bits :
    (after (.and 1 2 3 0) (withRegs [(1, 0xF0F0F0F0), (2, 0xFF00FF00)])).readReg 3 = 0xF000F000 := by decide
theorem test_or_bits :
    (after (.or 1 2 3 0) (withRegs [(1, 0x12340000), (2, 0x00005678)])).readReg 3 = 0x12345678 := by decide
-- C3: unsigned, a signed comparison would give 1 and 0
theorem test_slt_unsigned : (after (.slt 1 2 3 0) (withRegs [(1, 0xFFFFFFFF), (2, 1)])).readReg 3 = 0 := by decide
theorem test_slt_unsigned_mirror :
    (after (.slt 1 2 3 0) (withRegs [(1, 0x7FFFFFFF), (2, 0x80000000)])).readReg 3 = 1 := by decide
-- W4: the write to register 0 is undone
theorem test_add_register_zero : (after (.add 1 1 0 0) (withRegs [(1, 5)])).readReg 0 = 0 := by decide
-- 2.2: unknown(0) advances and is counted
theorem test_unknownFunct_advances :
    (after (.unknownFunct 0 0 0 0 0) State.reset).pc = 0x00400004 ∧
      (after (.unknownFunct 0 0 0 0 0) State.reset).stepCount = 1 := by decide
-- 2.3
theorem test_addi_negative : (after (.addi 0 1 (-32768)) State.reset).readReg 1 = 0xFFFF8000 := by decide
theorem test_addi_wraps : (after (.addi 1 2 1) (withRegs [(1, 0xFFFFFFFF)])).readReg 2 = 0 := by decide

/-- A state whose memory holds 0x55 at key 8 and 0xFFFFFFFF at key 104, with `x[1] = 8`. -/
def withMemory : State := { withRegs [(1, 8)] with dmem := [(8, 0x55), (104, 0xFFFFFFFF)] }

-- 2.4: base = dest
theorem test_lw_base_is_dest : (after (.lw 1 1 0) withMemory).readReg 1 = 0x55 := by decide
-- 2.4: key 105 is a cell of its own, and the read is reported
theorem test_lw_neighbouring_key : (after (.lw 1 4 97) withMemory).effect = some (.memRead 105 0) := by decide
-- 2.4: a negative key, not reduced
theorem test_sw_negative_key : (after (.sw 0 1 (-4)) withMemory).dmem = [(-4, 8), (8, 0x55), (104, 0xFFFFFFFF)] := by
  decide
-- 2.4: storing 0 unlists the key and is reported
theorem test_sw_zero :
    (after (.sw 0 0 8) withMemory).dmem = [(104, 0xFFFFFFFF)] ∧
      (after (.sw 0 0 8) withMemory).effect = some (.memWrite 8 0) := by decide
-- P2 with EA_WRAP: the key is 0xFFFFFF9C
theorem test_key_wrapped : (machine [] true .nop).dataKey 0 (-100) = 0xFFFFFF9C := by decide
-- W7
theorem test_beq_taken : (after (.beq 1 2 2) State.reset).pc = 0x0040000C := by decide
theorem test_beq_not_taken : (after (.beq 1 2 2) (withRegs [(1, 1)])).pc = 0x00400004 := by decide
-- 2.5
theorem test_bne_taken :
    (after (.bne 1 0 (-3)) { withRegs [(1, 2)] with pc := 0x00400010 }).pc = 0x00400008 := by decide
theorem test_bne_not_taken : (after (.bne 3 3 5) State.reset).pc = 0x00400004 := by decide
-- W6 as corrected by C1
theorem test_j_target : (after (.j 0x10) State.reset).pc = 0x00000040 := by decide
-- 2.6: the region is the jump's own (C5)
theorem test_j_region : (after (.j 0x3FFFFFF) { State.reset with pc := 0x0FFFFFFC }).pc = 0x0FFFFFFC := by decide
-- 42_immediate_format.md R155
theorem test_unknownOp_advances : (after (.unknownOp 3 0 0 0) State.reset).pc = 0x00400004 := by decide

/-! ### The step and the host operations -/

-- 2.7: an empty program ends at its first step with its pc reported
theorem test_empty_program :
    (stepped State.reset).result = some (.pcOutOfRange 0x00400000) ∧ (stepped State.reset).halted = true := by decide
-- W10
theorem test_halted_step : (stepped (stepped State.reset)).result = some .halted := by decide
-- R107 and the example of R150, through withFetchWord
theorem test_step_record :
    (stepped (State.reset.withFetchWord 32 0x2001FFFF)).result =
      some (.ok 0x00400000 0x2001FFFF (.instr (.addi 0 1 (-1))) 1 none
        (Vector.replicate 32 (0 : Word) |>.set 1 0xFFFFFFFF)) := by decide
theorem test_decodeTableWord : decodeTableWord 32 0x8C230004 = some (.lw 1 3 4) := by decide
-- R201
theorem test_status_codes : statusCode (.pcOutOfRange 0) = 2 ∧ statusCode .unknownType = 4 := by decide

/-! ### Witnesses: a state and operands that meet each statement's hypotheses -/

/-- A two-word program, `addi $1, $0, 3` and `sw $1, 8($0)`, loaded at the default base. -/
def twoWords : State := machine [0x20010003, 0xAC010008] false .nop

theorem witness_load : load {} [0x20010003, 0xAC010008] none = .next twoWords := rfl
-- R231: the highest admitted base, and one failure of each condition
theorem witness_LoadRule_admitted : loadAdmitted [] 4294967296 ∧ loadAdmitted [4294967295] 4294967292 := by decide
theorem witness_LoadRule_refused :
    ¬ loadAdmitted [4294967296] 0 ∧ ¬ loadAdmitted [-1] 0 ∧ ¬ loadAdmitted [] 2 ∧ ¬ loadAdmitted [] (-4) ∧
      ¬ loadAdmitted [0, 0] 4294967292 := by decide
theorem witness_ResetRestoresLoad : ∃ rs t, run 2 twoWords = (rs, .next t) := ⟨_, _, rfl⟩
theorem witness_InspectionShowsState : withMemory.dmem.wf := by decide
theorem witness_StaticDecodingAgrees :
    (∃ l, loadWithListing {} [0x20010003, 0xAC010008] none = .next (twoWords, l)) ∧ twoWords.cfg.imem[1]? = some 0xAC010008 ∧ (stepped twoWords).cfg = twoWords.cfg ∧
      (stepped twoWords).halted = false ∧ (stepped twoWords).pc = twoWords.cfg.base + 4 * (1 : Nat) ∧
      ∃ u, step (stepped twoWords) = .next u :=
  ⟨⟨_, rfl⟩, by decide, by decide, by decide, by decide, _, rfl⟩
theorem witness_DecodeEncodeAgree :
    (Instr.unknownFunct 31 31 31 31 63).wellFormed = true ∧ (Instr.addi 0 0 (-32768)).wellFormed = true ∧
      (Instr.unknownOp 63 31 31 32767).wellFormed = true := by decide
theorem witness_WordRoundTrip : (1 : BitVec 6) ≠ 0 ∧ (1 : BitVec 6) ∉ jumpSet ∧ (63 : BitVec 6) ∉ jumpSet := by decide
theorem witness_DecoderExtractsFields :
    fieldOp 0x03FFFFFF = 0 ∧ fieldOp 0x0BFFFFFF ∈ jumpSet ∧ fieldOp 0x0C000000 ∉ jumpSet ∧
      fieldOp 0x0C000000 ≠ 0 := by decide
theorem witness_SignExtensionRule : (0x7FFF#16).toNat / 2 ^ 15 = 0 ∧ (0x8000#16).toNat / 2 ^ 15 = 1 := by decide
theorem witness_SubResult_AddiResult : (31 : Reg) ≠ 0 := by decide
theorem witness_UnknownFunctAdvances : State.reset.cfg.unknownPolicy = .nop := by decide
theorem witness_UnknownFunctRefused :
    (machine [0] false .refuse).cfg.unknownPolicy = .refuse ∧
      step (machine [0] false .refuse) = .refused .unknownFunct := ⟨rfl, rfl⟩
theorem witness_EffectiveAddressRule :
    State.reset.cfg.eaWrap = false ∧ immInRange (-32768) = true ∧ immInRange 32767 = true ∧
      (machine [] true .nop).cfg.eaWrap = true := by decide
theorem witness_LoadWordResult : ∀ e ∈ withMemory.dmem, e.1 ≠ withMemory.dataKey 1 (-4) := by decide
theorem witness_StoreWordResult : withMemory.dmem.wf ∧ withMemory.readReg 0 = 0 := by decide
theorem witness_BranchResults : immInRange (-32768) = true ∧ immInRange 32767 = true := by decide
theorem witness_JumpResult : 0 ≤ State.reset.pc := by decide
theorem witness_JumpStaysInRegion : (0 : Int) ≤ 4294967292 ∧ (4294967292 : Int) < 2 ^ 32 := by decide
theorem witness_StepRunsDecodedInstruction :
    twoWords.halted = false ∧ fetchWord twoWords = some 0x20010003 ∧
      decode 0x20010003 = .instr (.addi 0 1 3) := by decide
theorem witness_HaltedStepChangesNothing : (stepped State.reset).halted = true := by decide
-- R102: below BASE, the first word, the last word, one past the last, and aligned
theorem witness_FetchRangeRule :
    fetchWord { twoWords with pc := 0x003FFFFC } = none ∧ fetchWord twoWords = some 0x20010003 ∧
      fetchWord { twoWords with pc := 0x00400004 } = some 0xAC010008 ∧
      fetchWord { twoWords with pc := 0x00400008 } = none ∧ (twoWords.pc - twoWords.cfg.base) % 4 = 0 := by decide
theorem witness_FetchReadsInstructionMemory :
    twoWords.pc = twoWords.cfg.base + 4 * (0 : Nat) ∧ twoWords.cfg.imem[0]? = some 0x20010003 := by decide
-- an "ok" step, a terminal step and a halted step: CommitCountsOkSteps, HaltedFlagRule, PcChangesOnlySo,
-- ConfigNeverChanges, StatusPriority
theorem witness_steps :
    (∃ t, step twoWords = .next t) ∧ (∃ t, step State.reset = .next t) ∧
      ∃ t, step (stepped State.reset) = .next t := ⟨⟨_, rfl⟩, ⟨_, rfl⟩, ⟨_, rfl⟩⟩
theorem witness_TerminalStepFreezes :
    step State.reset = .next (raiseStatus State.reset (.pcOutOfRange 0x00400000)) ∧
      (StepResult.pcOutOfRange 0x00400000).isTerminal = true := ⟨rfl, rfl⟩
theorem witness_PcChangesOnlySo :
    (Instr.addi 0 1 3).isControl = false ∧ (∃ t, exec (.addi 0 1 3) twoWords = .next t) ∧
      (∃ t, exec (.beq 0 0 1) twoWords = .next t) ∧ (∃ t, exec (.bne 0 0 1) twoWords = .next t) ∧
      (∃ t, exec (.j 0) twoWords = .next t) ∧ 0 ≤ twoWords.pc :=
  ⟨rfl, ⟨_, rfl⟩, ⟨_, rfl⟩, ⟨_, rfl⟩, ⟨_, rfl⟩, by decide⟩
theorem witness_OnlyDestinationChanges :
    (∃ t, exec (.addi 0 1 3) twoWords = .next t) ∧ (2 : Reg) ≠ 0 ∧ (Instr.addi 0 1 3).dest ≠ some 2 :=
  ⟨⟨_, rfl⟩, by decide, by decide⟩
theorem witness_RegisterZeroForced : ∃ t, exec (.addi 0 0 3) twoWords = .next t := ⟨_, rfl⟩
theorem witness_OnlyStoresChangeMemory :
    (∃ t, exec (.lw 0 1 3) twoWords = .next t) ∧ ∀ rs rt imm, Instr.lw 0 1 3 ≠ .sw rs rt imm :=
  ⟨⟨_, rfl⟩, by simp⟩
theorem witness_MemoryFollowsStores :
    twoWords.dmem.wf ∧ ∃ rs t, run 2 twoWords = (rs, .next t) := ⟨by decide, _, _, rfl⟩
theorem witness_StoreThenLoad : Inv twoWords ∧ (2 : Reg) ≠ 0 := by decide
theorem witness_StepKeepsInvariant : Inv twoWords ∧ ∃ t, step twoWords = .next t := ⟨by decide, _, rfl⟩
theorem witness_ExecutedPcInRange : Inv twoWords ∧ fetchWord twoWords = some 0x20010003 := by decide
theorem witness_OnlySourcesAreRead :
    (∀ r ∈ (Instr.addi 0 1 3).sources, twoWords.readReg r = (twoWords.writeReg 5 9).readReg r) ∧
      (∃ t, exec (.addi 0 1 3) twoWords = .next t) ∧
      ∃ t, exec (.addi 0 1 3) (twoWords.writeReg 5 9) = .next t := ⟨by decide, ⟨_, rfl⟩, ⟨_, rfl⟩⟩
theorem witness_BoundedRunRule :
    twoWords.halted = false ∧ (∃ t, step twoWords = .next t ∧ t.result.isSome = true) ∧
      (∃ t, (run 3 twoWords).2 = .next t) ∧ (stepped State.reset).halted = true ∧
      twoWords.cfg.unknownPolicy = .nop := ⟨rfl, ⟨_, rfl, rfl⟩, ⟨_, rfl⟩, by decide, rfl⟩
-- P5's self loop
theorem witness_UnendingRunFillsBudget :
    (machine [0x1000FFFF] false .nop).halted = false ∧
      ∃ rs t, run 3 (machine [0x1000FFFF] false .nop) = (rs, .next t) ∧ t.halted = false := ⟨rfl, _, _, rfl, rfl⟩
theorem witness_StraightLineTerminates :
    load {} [0x20010003, 0xAC010008] none = .next twoWords ∧
      (∀ w ∈ twoWords.cfg.imem, ∀ i, decode w = .instr i → i.isControl = false) := by
  refine ⟨rfl, fun w hw i hi => ?_⟩
  simp only [twoWords, machine, State.initial, List.mem_cons, List.not_mem_nil, or_false] at hw
  rcases hw with rfl | rfl
  · rw [show decode 0x20010003 = .instr (.addi 0 1 3) by decide] at hi
    cases hi; rfl
  · rw [show decode 0xAC010008 = .instr (.sw 0 1 8) by decide] at hi
    cases hi; rfl

end Sys2Proof.Tests
end

section
/-! The state right after a load or reset (spec/10_state.md R36), and the reset obligation. -/

namespace Sys2Proof.Machine

/-- Every register is 0 in the state a load or reset builds (R36, D8). -/
@[simp] theorem State.readReg_initial (cfg : Config) (r : Reg) : (State.initial cfg).readReg r = 0 := by
  simp only [State.readReg, State.initial, Vector.getElem_replicate]

/-- No memory key has been written in the state a load or reset builds (R34, R36). -/
@[simp] theorem State.memRead_initial (cfg : Config) (a : Int) : (State.initial cfg).memRead a = 0 :=
  Memory.read_nil a

/-- Settles O1: the reset state is the initial state of the empty configuration, so the registers and the
memory are those of every initial state, and the other fields are read off its definition. -/
theorem resetState : Obligations.ResetState :=
  ⟨State.readReg_initial emptyConfig, rfl, rfl, rfl, State.memRead_initial emptyConfig, rfl, rfl, rfl, rfl,
    rfl, rfl⟩

end Sys2Proof.Machine
end

section
/-! Sign extension (spec/00_scope.md R10) is the signed reading of the 16-bit vector. -/

namespace Sys2Proof

/-- The library's two's-complement reading, by which its lemmas on `BitVec.toInt` apply to `sext16`. -/
theorem sext16_eq_toInt (v : BitVec 16) : sext16 v = v.toInt := by
  rw [BitVec.toInt_eq_msb_cond, BitVec.msb_eq_getLsbD_last]
  rfl

theorem sext16_of_bit15_clear {v : BitVec 16} (h : v.toNat / 2 ^ 15 = 0) : sext16 v = v.toNat := by
  rw [sext16_eq_toInt, BitVec.toInt_eq_toNat_of_lt (by omega)]

theorem sext16_of_bit15_set {v : BitVec 16} (h : v.toNat / 2 ^ 15 = 1) : sext16 v = v.toNat - 65536 := by
  rw [sext16_eq_toInt, BitVec.toInt_eq_toNat_cond, if_neg (by omega)]
  rfl

theorem neg_32768_le_sext16 (v : BitVec 16) : -32768 ≤ sext16 v :=
  sext16_eq_toInt v ▸ v.le_toInt

theorem sext16_le_32767 (v : BitVec 16) : sext16 v ≤ 32767 :=
  Int.le_of_lt_add_one (sext16_eq_toInt v ▸ v.toInt_lt)

theorem sext16_emod (v : BitVec 16) : sext16 v % 65536 = v.toNat := by
  calc sext16 v % 65536 = (v.toNat : Int).bmod (2 ^ 16) % (2 ^ 16 : Nat) := by
        rw [sext16_eq_toInt, BitVec.toInt_eq_toNat_bmod]; rfl
    _ = (v.toNat : Int) % (2 ^ 16 : Nat) := Int.bmod_emod
    _ = v.toNat := by have := v.isLt; omega

/-- Settles O12: the two cases of bit 15, the signed range, and congruence modulo 65536. -/
theorem signExtensionRule : Obligations.SignExtensionRule := fun v =>
  ⟨sext16_of_bit15_clear, sext16_of_bit15_set, neg_32768_le_sext16 v, sext16_le_32767 v, sext16_emod v⟩

end Sys2Proof
end

section
/-! The pc a dispatched instruction leaves (spec/10_state.md R25, R26, spec/43_jump_format.md R180). -/

namespace Sys2Proof.Machine

/-- The pc that `i` leaves in `s` when it answers a next state (`exec_pc`): the multiplexer of R110. -/
def nextPc (i : Instr) (s : State) : Int :=
  match i with
  | .beq rs rt imm => branchPc (testEqual (s.readReg rs) (s.readReg rt)) s.pc imm
  | .bne rs rt imm => branchPc (testNotEqual (s.readReg rs) (s.readReg rt)) s.pc imm
  | .j addr => jumpTarget s.pc addr
  | _ => sequentialPc s.pc

theorem exec_pc {i : Instr} {s t : State} (h : exec i s = .next t) : t.pc = nextPc i s := by
  cases i with
  | unknownFunct rs rt rd shamt funct =>
    simp only [exec, execUnknownFunct] at h
    split at h
    · cases commit_next h; rfl
    · cases h
  | _ => cases commit_next h; rfl

theorem nextPc_of_isControl_false {i : Instr} (s : State) (h : i.isControl = false) :
    nextPc i s = s.pc + 4 := by
  cases i with
  | beq | bne | j => cases h
  | _ => rfl

theorem nextPc_beq (rs rt : Reg) (imm : Int) (s : State) :
    nextPc (.beq rs rt imm) s = if s.readReg rs = s.readReg rt then s.pc + 4 + imm * 4 else s.pc + 4 := by
  simp [nextPc, branchPc, testEqual, branchTarget, sequentialPc]

theorem nextPc_bne (rs rt : Reg) (imm : Int) (s : State) :
    nextPc (.bne rs rt imm) s = if s.readReg rs = s.readReg rt then s.pc + 4 else s.pc + 4 + imm * 4 := by
  simp [nextPc, branchPc, testNotEqual, testEqual, branchTarget, sequentialPc]

/-- Masking with a constant below `2^n` sees only the low `n` bits. -/
theorem mod_two_pow_and_of_lt {m n : Nat} (a : Nat) (hm : m < 2 ^ n) : a % 2 ^ n &&& m = a &&& m := by
  calc a % 2 ^ n &&& m = (a &&& m) % 2 ^ n := by rw [Nat.and_mod_two_pow, Nat.mod_eq_of_lt hm]
    _ = a &&& m := Nat.mod_eq_of_lt (Nat.and_lt_two_pow a hm)

/-- From a non-negative pc the target is R180's formula, without the model's narrowing of the pc. -/
theorem jumpTarget_of_nonneg {pc : Int} (addr : BitVec 26) (h : 0 ≤ pc) :
    jumpTarget pc addr =
      (((pc.toNat &&& 0xF0000000) ||| ((addr.toNat <<< 2) &&& 0x0FFFFFFF) : Nat) : Int) := by
  have hlow : (pc % 4294967296).toNat = pc.toNat % 2 ^ 32 := by omega
  rw [jumpTarget, hlow, mod_two_pow_and_of_lt _ (by decide)]

/-- A jump target is aligned, whatever the pc: the masked pc and the shifted address both end in 00. -/
theorem jumpTarget_emod_four (pc : Int) (addr : BitVec 26) : jumpTarget pc addr % 4 = 0 := by
  have hpc : ((pc % 4294967296).toNat &&& 0xF0000000) % 2 ^ 2 = 0 := by
    rw [Nat.and_mod_two_pow]
    exact Nat.and_zero _
  have haddr : ((addr.toNat <<< 2) &&& 0x0FFFFFFF) % 2 ^ 2 = 0 := by
    rw [Nat.and_mod_two_pow, Nat.shiftLeft_eq, Nat.mul_mod_left, Nat.zero_and]
  have hor : (((pc % 4294967296).toNat &&& 0xF0000000) ||| ((addr.toNat <<< 2) &&& 0x0FFFFFFF)) %
      2 ^ 2 = 0 := by
    rw [Nat.or_mod_two_pow, hpc, haddr, Nat.or_zero]
  unfold jumpTarget
  exact_mod_cast hor

theorem branchPc_emod_four (taken : Bool) {pc : Int} (imm : Int) (h : pc % 4 = 0) :
    branchPc taken pc imm % 4 = 0 := by
  unfold branchPc branchTarget sequentialPc
  split <;> omega

/-- Every input of the multiplexer is aligned where the pc is (R26). -/
theorem nextPc_emod_four (i : Instr) {s : State} (h : s.pc % 4 = 0) : nextPc i s % 4 = 0 := by
  cases i with
  | beq rs rt imm => exact branchPc_emod_four _ imm h
  | bne rs rt imm => exact branchPc_emod_four _ imm h
  | j addr => exact jumpTarget_emod_four s.pc addr
  | _ => exact (Int.add_emod_right s.pc 4).trans h

end Sys2Proof.Machine
end

section
/-! What every dispatched instruction keeps, from the one list of what a dispatch can do (`exec_next`). -/

namespace Sys2Proof.Machine

section Exec
variable {i : Instr} {s t : State}

theorem exec_cfg (h : exec i s = .next t) : t.cfg = s.cfg := by
  obtain ⟨u, e, p, rfl, rfl | ⟨r, v, -, rfl⟩ | ⟨rs, rt, imm, -, rfl⟩⟩ := exec_next h <;> rfl

theorem exec_halted (h : exec i s = .next t) : t.halted = s.halted := by
  obtain ⟨u, e, p, rfl, rfl | ⟨r, v, -, rfl⟩ | ⟨rs, rt, imm, -, rfl⟩⟩ := exec_next h <;> rfl

/-- The commit forces register 0 whatever it held or was given (R22, R106). -/
theorem exec_readReg_zero (h : exec i s = .next t) : t.readReg 0 = 0 := by
  obtain ⟨u, e, p, rfl, -⟩ := exec_next h
  simp

theorem exec_readReg_of_ne_dest {r : Reg} (h : exec i s = .next t) (hr : r ≠ 0)
    (hdest : i.dest ≠ some r) : t.readReg r = s.readReg r := by
  obtain ⟨u, e, p, rfl, hu⟩ := exec_next h
  rw [committed_readReg, if_neg hr]
  obtain rfl | ⟨q, v, hq, rfl⟩ | ⟨rs, rt, imm, -, rfl⟩ := hu
  · rfl
  · rw [State.readReg_writeReg, if_neg fun hrq : r = q => hdest (hrq ▸ hq)]
  · rfl

theorem exec_dmem_wf (h : exec i s = .next t) (hs : s.dmem.wf) : t.dmem.wf := by
  obtain ⟨u, e, p, rfl, rfl | ⟨r, v, -, rfl⟩ | ⟨rs, rt, imm, -, rfl⟩⟩ := exec_next h
  · exact hs
  · exact hs
  · exact Memory.wf_write hs _ _

theorem exec_inv (h : exec i s = .next t) (hs : Inv s) : Inv t := by
  obtain ⟨hmem, -, hcfg, hpc⟩ := hs
  exact ⟨exec_dmem_wf h hmem, exec_readReg_zero h, exec_cfg h ▸ hcfg, exec_pc h ▸ nextPc_emod_four i hpc⟩

end Exec

/-- Settles O43: the halted and the out-of-range step change nothing the invariant speaks of, and a
dispatched instruction keeps it. -/
theorem stepKeepsInvariant : Obligations.StepKeepsInvariant := by
  intro s t hs h
  obtain ⟨-, rfl⟩ | ⟨-, -, rfl⟩ | ⟨-, w, i, u, -, -, hu, rfl⟩ := step_next h
  · exact hs
  · exact hs
  · exact (exec_inv hu hs :)

/-- Settles O37: only the destination is written, and the commit forces only register 0. -/
theorem onlyDestinationChanges : Obligations.OnlyDestinationChanges :=
  fun _ _ _ _ h hr hdest => exec_readReg_of_ne_dest h hr hdest

/-- Settles O38: the force of register 0, and for lw the read its commit reports. -/
theorem registerZeroForced : Obligations.RegisterZeroForced := by
  refine ⟨fun _ _ _ h => exec_readReg_zero h, fun rs imm s => ⟨_, rfl, rfl, fun r hr => ?_⟩⟩
  exact exec_readReg_of_ne_dest (i := .lw rs 0 imm) rfl hr fun h => hr (Option.some.inj h).symm

/-- Settles O40: no status touches the configuration and no dispatched instruction does. -/
theorem configNeverChanges : Obligations.ConfigNeverChanges := by
  intro s t h
  obtain ⟨-, rfl⟩ | ⟨-, -, rfl⟩ | ⟨-, w, i, u, -, -, hu, rfl⟩ := step_next h
  · rfl
  · rfl
  · exact (exec_cfg hu :)

/-- Settles O36: the multiplexer's four inputs, the statuses that leave the pc alone, and the base at load
and reset. -/
theorem pcChangesOnlySo : Obligations.PcChangesOnlySo := by
  refine ⟨fun i s t h => ⟨fun hi => ?_, ?_, ?_, ?_⟩, fun s t h => ?_, fun p words base t h => ?_,
    fun s => rfl⟩
  · rw [exec_pc h, nextPc_of_isControl_false s hi]
  · rintro rs rt imm rfl
    rw [exec_pc h, nextPc_beq]
  · rintro rs rt imm rfl
    rw [exec_pc h, nextPc_bne]
  · rintro addr rfl hpc
    exact (exec_pc h).trans (jumpTarget_of_nonneg addr hpc)
  · obtain ⟨-, rfl⟩ | ⟨-, -, rfl⟩ | ⟨-, w, i, u, hw, hi, hu, rfl⟩ := step_next h
    · exact .inr ⟨rfl, _, rfl, rfl⟩
    · exact .inr ⟨rfl, _, rfl, rfl⟩
    · exact .inl ⟨w, i, u, hw, hi, hu, rfl⟩
  · obtain ⟨-, rfl⟩ := load_next h
    rfl

end Sys2Proof.Machine
end

section
/-! The halted flag (spec/10_state.md R28). -/

namespace Sys2Proof.Machine

theorem step_of_halted {s : State} (h : s.halted = true) : step s = .next (reportHalted s) := by
  simp [step, cycle, h]

theorem run_of_halted {s : State} (n : Nat) (h : s.halted = true) : run n s = ([], .next s) := by
  cases n with
  | zero => rfl
  | succ n => simp [run, h]

theorem step_halted_iff {s t : State} (h : step s = .next t) :
    t.halted = true ↔ (s.halted = true ∨ ∃ r, t.result = some r ∧ r.isTerminal = true) := by
  obtain ⟨hs, rfl⟩ | ⟨-, -, rfl⟩ | ⟨hs, w, i, u, -, -, hu, rfl⟩ := step_next h
  · simp [hs]
  · simp [StepResult.isTerminal]
  · simp [hs, exec_halted hu, StepResult.isTerminal]

/-- Settles O35: the flag after a step, the step and run of a halted machine, and the initial state. -/
theorem haltedFlagRule : Obligations.HaltedFlagRule := by
  refine ⟨fun s t h => step_halted_iff h,
    fun s h => ⟨⟨none, step_of_halted h⟩, fun n => run_of_halted n h⟩, fun p words base t h => ?_,
    fun s => rfl⟩
  obtain ⟨-, rfl⟩ := load_next h
  rfl

end Sys2Proof.Machine
end

section
/-! What a canonical memory lists (spec/10_state.md R34, R35). -/

namespace Sys2Proof.Machine

theorem Memory.wf_tail {p : Int × Word} {m : Memory} (h : Memory.wf (p :: m)) : m.wf :=
  ⟨(List.pairwise_cons.1 h.1).2, fun q hq => h.2 q (List.mem_cons_of_mem p hq)⟩

/-- A canonical memory lists exactly the keys that do not read as 0, each with what it reads as. -/
theorem Memory.mem_iff_read {m : Memory} (hm : m.wf) (a : Int) (v : Word) :
    (a, v) ∈ m ↔ v ≠ 0 ∧ m.read a = v := by
  induction m with
  | nil => exact ⟨nofun, fun ⟨hv, h⟩ => absurd h.symm hv⟩
  | cons p m ih =>
    obtain ⟨k, u⟩ := p
    have ih := ih (Memory.wf_tail hm)
    have hu : u ≠ 0 := hm.2 (k, u) List.mem_cons_self
    rw [List.mem_cons, Prod.mk.injEq, Memory.read_cons]
    by_cases hk : a = k
    · have hrest : (a, v) ∉ m := fun h => (hk ▸ (List.pairwise_cons.1 hm.1).1 _ h).ne rfl
      rw [if_pos hk]
      constructor
      · rintro (⟨-, rfl⟩ | h)
        · exact ⟨hu, rfl⟩
        · exact absurd h hrest
      · rintro ⟨-, rfl⟩
        exact .inl ⟨hk, rfl⟩
    · simp [hk, ih]

theorem Memory.nodup_keys {m : Memory} (hm : m.wf) : (m.map Prod.fst).Nodup :=
  List.pairwise_map.2 (hm.1.imp ne_of_lt)

/-- Settles O6: the memory view of a canonical memory is its list of entries, and the other parts of an
inspection are the state's own fields. -/
theorem inspectionShowsState : Obligations.InspectionShowsState := fun _ hs =>
  ⟨Memory.mem_iff_read hs, Memory.nodup_keys hs, fun _ => rfl, rfl, rfl, rfl⟩

end Sys2Proof.Machine
end

section
/-! The invariant at its start, and what it says of the pc a word is fetched at. -/

namespace Sys2Proof.Machine

/-- A load or reset with an admitted configuration builds a state that meets the invariant (R36, R231). -/
theorem State.inv_initial {cfg : Config} (h : cfg.admitted) : Inv (State.initial cfg) :=
  ⟨Memory.wf_nil, State.readReg_initial cfg 0, h, h.1⟩

/-- Settles O2: the empty program at the default base is an admitted configuration. -/
theorem resetMeetsInvariant : Obligations.ResetMeetsInvariant :=
  State.inv_initial (by decide)

theorem fetchIndex_of_fetchWord {s : State} {w : Word} (h : fetchWord s = some w) :
    ∃ k, fetchIndex s = some k := by
  cases hk : fetchIndex s with
  | none => simp [fetchWord, hk] at h
  | some k => exact ⟨k, rfl⟩

/-- Settles O44: a fetched word lies in the program, which an admitted configuration places within the
first `2^32` bytes, and the pc is aligned. -/
theorem executedPcInRange : Obligations.ExecutedPcInRange := by
  rintro s w ⟨-, -, ⟨-, hbase, htop⟩, hpc⟩ hw
  obtain ⟨k, hk⟩ := fetchIndex_of_fetchWord hw
  obtain ⟨hlen, hlow, hhigh⟩ := fetchIndex_some hk
  exact ⟨by omega, by omega, hpc⟩

end Sys2Proof.Machine
end

section
/-! Fetch (spec/20_memory.md R55, spec/40_execution_cycle.md R102, R103). -/

namespace Sys2Proof.Machine

/-- At the address of word `k` fetch is the list's own lookup, which answers none past the end. -/
theorem fetchWord_eq_getElem? {s : State} {k : Nat} (h : s.pc = s.cfg.base + 4 * k) :
    fetchWord s = s.cfg.imem[k]? := by
  have hoff : s.pc - s.cfg.base = 4 * k := by omega
  have hnonneg : ¬ (4 * k : Int) < 0 := by omega
  have hindex : ((4 * k : Int) / 4).toNat = k := by omega
  simp only [fetchWord, fetchIndex, hoff, if_neg hnonneg, hindex]
  by_cases hk : k < s.cfg.imem.length
  · rw [if_pos hk]
  · rw [if_neg hk, List.getElem?_eq_none (Nat.le_of_not_lt hk)]

/-- Settles O33: fetch looks at the pc and the configuration only. -/
theorem fetchReadsInstructionMemory : Obligations.FetchReadsInstructionMemory := by
  intro s k w hpc hw m x
  calc fetchWord { s with dmem := m, regs := x } = fetchWord s := rfl
    _ = s.cfg.imem[k]? := fetchWord_eq_getElem? hpc
    _ = some w := hw

end Sys2Proof.Machine
end

section
/-! The load and the store (spec/20_memory.md R51 to R53, spec/42_immediate_format.md R151, R152). -/

namespace Sys2Proof.Machine

/-- Settles O23: lw is a commit after one register write, and a key no entry lists reads as 0. -/
theorem loadWordResult : Obligations.LoadWordResult := fun _ rt _ s =>
  ⟨⟨_, rfl, retires_writeReg s rt _ _ _, rfl⟩, Memory.read_of_unlisted⟩

/-- Settles O24: sw is a commit after one memory write, which keeps the memory canonical, so that no
entry of it can hold the 0 that the written key reads as. -/
theorem storeWordResult : Obligations.StoreWordResult := by
  intro rs rt imm s hs
  refine ⟨_, rfl, retires_memWrite hs _ _ _ _, fun hzero e he hkey => ?_⟩
  have hwritten := Memory.wf_write hs (s.dataKey rs imm) (s.readReg rt)
  obtain ⟨hne, hread⟩ := (Memory.mem_iff_read hwritten e.1 e.2).1 he
  rw [hkey, Memory.read_write_self hs, hzero] at hread
  exact hne hread.symm

/-- The effective address depends on its source register and on `EA_WRAP` only (R53). -/
theorem State.dataKey_congr {s t : State} {rs : Reg} (imm : Int) (hcfg : t.cfg = s.cfg)
    (hreg : t.readReg rs = s.readReg rs) : t.dataKey rs imm = s.dataKey rs imm := by
  unfold State.dataKey
  rw [hcfg, hreg]

/-- Settles O42: the commit of the store keeps the source register, register 0 because the invariant says
that it was 0 before, so the load has the key of the store and reads the value stored. -/
theorem storeThenLoad : Obligations.StoreThenLoad := by
  rintro rs rt rt' imm s ⟨hmem, hzero, -, -⟩
  obtain ⟨t, ht, hst, -⟩ := storeWordResult rs rt imm s hmem
  obtain ⟨⟨u, hu, hload, -⟩, -⟩ := loadWordResult rs rt' imm t
  have hsource : t.readReg rs = s.readReg rs := by
    rw [hst.regs]
    split
    · subst rs; exact hzero.symm
    · rfl
  have hkey : t.dataKey rs imm = s.dataKey rs imm := State.dataKey_congr imm hst.cfg hsource
  have hvalue : t.memRead (s.dataKey rs imm) = s.readReg rt := by rw [hst.mem, if_pos rfl]
  rw [hkey, hvalue] at hload
  refine ⟨t, u, ht, hu, hload.effect, fun hrt' => ?_⟩
  rw [hload.regs, if_neg hrt', withReg, if_pos rfl]

end Sys2Proof.Machine
end

section
/-! The data memory over a run (spec/20_memory.md R56, R61): only sw changes it, and its record says how. -/

namespace Sys2Proof.Machine

/-- Settles O39: of the writes a dispatch can make only that of sw is to memory. -/
theorem onlyStoresChangeMemory : Obligations.OnlyStoresChangeMemory := by
  intro i s t h hi
  obtain ⟨u, e, p, rfl, rfl | ⟨r, v, -, rfl⟩ | ⟨rs, rt, imm, hsw, -⟩⟩ := exec_next h
  · rfl
  · rfl
  · exact absurd hsw (hi rs rt imm)

/-- The side-effect record that `i` leaves in `s` when it answers a next state (`exec_effect`, R108). -/
def sideEffect (i : Instr) (s : State) : Option Effect :=
  match i with
  | .lw rs _ imm => some (.memRead (s.dataKey rs imm) (s.memRead (s.dataKey rs imm)))
  | .sw rs rt imm => some (.memWrite (s.dataKey rs imm) (s.readReg rt))
  | _ => none

/-- An unknown function code that is given a meaning only advances the pc (R135). -/
theorem execUnknownFunct_next {s t : State} (h : execUnknownFunct s = .next t) :
    t = committed s none (sequentialPc s.pc) := by
  unfold execUnknownFunct at h
  split at h
  · exact commit_next h
  · cases h

theorem exec_effect {i : Instr} {s t : State} (h : exec i s = .next t) : t.effect = sideEffect i s := by
  cases i with
  | unknownFunct => cases execUnknownFunct_next h; rfl
  | _ => cases commit_next h; rfl

/-- The memory a dispatched instruction leaves is what its "ok" record says, whatever else is recorded. -/
theorem exec_memRead {i : Instr} {s t : State} (h : exec i s = .next t) (hs : s.dmem.wf) (pc : Int)
    (w : Word) (d : Decoded) (n : Nat) (x : Regs) :
    t.memRead = memoryAfter s.memRead (.ok pc w d n t.effect x) := by
  rw [exec_effect h]
  cases i with
  | sw rs rt imm =>
    cases commit_next h
    exact funext fun a => Memory.read_write hs (s.dataKey rs imm) a (s.readReg rt)
  | _ => exact congrArg Memory.read (onlyStoresChangeMemory _ s t h nofun)

/-- One step: the memory reads as its result says, and is canonical again. -/
theorem step_memRead {s t : State} {r : StepResult} (h : step s = .next t) (hs : s.dmem.wf)
    (hr : t.result = some r) : t.memRead = memoryAfter s.memRead r ∧ t.dmem.wf := by
  obtain ⟨-, rfl⟩ | ⟨-, -, rfl⟩ | ⟨-, w, i, u, -, -, hu, rfl⟩ := step_next h
  · cases hr
    exact ⟨rfl, hs⟩
  · cases hr
    exact ⟨rfl, hs⟩
  · cases hr
    exact ⟨exec_memRead hu hs .., (exec_dmem_wf hu hs :)⟩

/-- A run from a canonical memory: the reads of its last state are the fold of its results. -/
theorem run_memRead {n : Nat} {s t : State} {rs : List StepResult} (hs : s.dmem.wf)
    (h : run n s = (rs, .next t)) : t.memRead = rs.foldl memoryAfter s.memRead := by
  induction n generalizing s rs with
  | zero => cases h; rfl
  | succ n ih =>
    obtain ⟨rfl, rfl, -⟩ | ⟨m, u, r, rs', hm, -, hstep, hr, rfl, hrun⟩ := run_next h
    · rfl
    · cases hm
      obtain ⟨hread, hwf⟩ := step_memRead hstep hs hr
      rw [List.foldl_cons, ← hread]
      exact ih hwf hrun

/-- Settles O41, by induction on the number of steps (`run_memRead`). -/
theorem memoryFollowsStores : Obligations.MemoryFollowsStores :=
  fun _ _ _ _ hs h => congrFun (run_memRead hs h)

end Sys2Proof.Machine
end

section
/-! The decoder by format (spec/30_encoding.md R71 to R75, R80): what it hands on, in terms of the fields. -/

namespace Sys2Proof

section Decode
variable {w : Word}

theorem decode_of_op_eq_zero (h : fieldOp w = 0) : decode w =
    .instr (registerInstr (fieldRs w) (fieldRt w) (fieldRd w) (fieldShamt w) (fieldFunct w)) := by
  simp only [decode, formatOf, if_pos h]

theorem decode_of_op_mem_jumpSet (h : fieldOp w ∈ jumpSet) : decode w = .instr (.j (fieldAddr w)) := by
  have hop : fieldOp w = opJ := List.mem_singleton.1 h
  have hformat : formatOf opJ = .jump := by decide
  simp only [decode, hop, hformat, jumpDecoded, if_pos]

theorem decode_of_op_other (hzero : fieldOp w ≠ 0) (hjump : fieldOp w ∉ jumpSet) : decode w =
    .instr (immediateInstr (fieldOp w) (fieldRs w) (fieldRt w) (sext16 (fieldImm w))) := by
  simp only [decode, formatOf, if_neg hzero, if_neg hjump]

end Decode

/-- The reading of R71 and R73 to R75 that every field definition shares. -/
theorem toNat_extractLsb'_eq_div_mod (w : Word) (start len : Nat) :
    (w.extractLsb' start len).toNat = w.toNat / 2 ^ start % 2 ^ len := by
  rw [BitVec.extractLsb'_toNat, Nat.shiftRight_eq_div_pow]

/-- The opcode is at the top of the word, so that its quotient needs no reduction. -/
theorem fieldOp_toNat (w : Word) : (fieldOp w).toNat = w.toNat / 2 ^ 26 := by
  have hlt : w.toNat / 2 ^ 26 < 2 ^ 6 := by have := w.isLt; omega
  rw [fieldOp, toNat_extractLsb'_eq_div_mod, Nat.mod_eq_of_lt hlt]

theorem toNat_extractLsb'_zero (w : Word) (len : Nat) :
    (w.extractLsb' 0 len).toNat = w.toNat % 2 ^ len := by
  rw [toNat_extractLsb'_eq_div_mod, pow_zero, Nat.div_one]

/-- Settles O11: each field is an `extractLsb'`, and the decoder's three formats. -/
theorem decoderExtractsFields : Obligations.DecoderExtractsFields := fun w =>
  ⟨fieldOp_toNat w, toNat_extractLsb'_eq_div_mod w 21 5, toNat_extractLsb'_eq_div_mod w 16 5,
    toNat_extractLsb'_eq_div_mod w 11 5, toNat_extractLsb'_eq_div_mod w 6 5,
    toNat_extractLsb'_zero w 6, toNat_extractLsb'_zero w 16, toNat_extractLsb'_zero w 26,
    decode_of_op_eq_zero, fun _ => decode_of_op_mem_jumpSet, decode_of_op_other⟩

end Sys2Proof
end

section
/-! The decoding of a word built from a format's fields (spec/30_encoding.md R82). -/

namespace Sys2Proof

theorem decode_registerWord (rs rt rd shamt : Reg) (funct : BitVec 6) :
    decode (registerWord rs rt rd shamt funct) = .instr (registerInstr rs rt rd shamt funct) := by
  rw [decode_of_op_eq_zero (fieldOp_registerWord rs rt rd shamt funct)]
  simp

theorem decode_immediateWord {op : BitVec 6} (rs rt : Reg) (imm : Int) (hzero : op ≠ 0)
    (hjump : op ∉ jumpSet) : decode (immediateWord op rs rt imm) =
      .instr (immediateInstr op rs rt (sext16 (BitVec.ofInt 16 imm))) := by
  have hzero' : fieldOp (immediateWord op rs rt imm) ≠ 0 := by rwa [fieldOp_immediateWord]
  have hjump' : fieldOp (immediateWord op rs rt imm) ∉ jumpSet := by rwa [fieldOp_immediateWord]
  rw [decode_of_op_other hzero' hjump']
  simp

theorem decode_jumpWord (addr : BitVec 26) : decode (jumpWord opJ addr) = .instr (.j addr) := by
  have hop : fieldOp (jumpWord opJ addr) ∈ jumpSet := by simp [jumpSet]
  rw [decode_of_op_mem_jumpSet hop, fieldAddr_jumpWord]

/-- R82 shifts the fields as integers, the encoder as words. -/
theorem ofNat_toNat_shiftLeft {n : Nat} (v : BitVec n) (k : Nat) :
    BitVec.ofNat 32 (v.toNat <<< k) = v.setWidth 32 <<< k := by
  apply BitVec.eq_of_toNat_eq
  simp only [BitVec.toNat_ofNat, BitVec.toNat_shiftLeft, BitVec.toNat_setWidth, Nat.shiftLeft_eq,
    Nat.mod_mul_mod]

theorem registerWord_eq_ofNat (rs rt rd shamt : Reg) (funct : BitVec 6) :
    registerWord rs rt rd shamt funct = BitVec.ofNat 32 ((rs.toNat <<< 21) ||| (rt.toNat <<< 16) |||
      (rd.toNat <<< 11) ||| (shamt.toNat <<< 6) ||| funct.toNat) := by
  simp only [registerWord, BitVec.ofNat_or, ofNat_toNat_shiftLeft, BitVec.ofNat_toNat]

theorem immediateWord_eq_ofNat (op : BitVec 6) (rs rt : Reg) (imm : Int) :
    immediateWord op rs rt imm = BitVec.ofNat 32 ((op.toNat <<< 26) ||| (rs.toNat <<< 21) |||
      (rt.toNat <<< 16) ||| (imm % 65536).toNat) := by
  have himm : (imm % 65536).toNat = (BitVec.ofInt 16 imm).toNat := by
    rw [BitVec.toNat_ofInt]; rfl
  simp only [immediateWord, himm, BitVec.ofNat_or, ofNat_toNat_shiftLeft, BitVec.ofNat_toNat]

theorem jumpWord_eq_ofNat (op : BitVec 6) (addr : BitVec 26) :
    jumpWord op addr = BitVec.ofNat 32 ((op.toNat <<< 26) ||| addr.toNat) := by
  simp only [jumpWord, BitVec.ofNat_or, ofNat_toNat_shiftLeft, BitVec.ofNat_toNat]

/-- Settles O10: the three words of R82 are the encoder's, whose fields and decoding are known. -/
theorem wordRoundTrip : Obligations.WordRoundTrip := by
  refine ⟨fun rs rt rd shamt funct => ?_, fun op rs rt imm hzero hjump => ?_, fun addr => ?_⟩
  · rw [← registerWord_eq_ofNat]
    simp [decode_registerWord]
  · rw [← immediateWord_eq_ofNat]
    simp [decode_immediateWord rs rt imm hzero hjump]
  · have hword := jumpWord_eq_ofNat opJ addr
    rw [show opJ.toNat = 2 from rfl] at hword
    rw [← hword]
    simp [decode_jumpWord]

end Sys2Proof
end

section
/-! Decoding and encoding undo each other (spec/30_encoding.md R80 to R84). A well-formed instruction is
the register-format or the immediate-format instruction of some fields, or a jump. -/

namespace Sys2Proof

theorem encode_registerInstr (rs rt rd shamt : Reg) (funct : BitVec 6) :
    encode (registerInstr rs rt rd shamt funct) = registerWord rs rt rd shamt funct := by
  unfold registerInstr
  split_ifs <;> simp [encode, *]

theorem encode_immediateInstr (op : BitVec 6) (rs rt : Reg) (imm : Int) :
    encode (immediateInstr op rs rt imm) = immediateWord op rs rt imm := by
  unfold immediateInstr
  split_ifs <;> simp [encode, *]

theorem registerInstr_wellFormed (rs rt rd shamt : Reg) (funct : BitVec 6) :
    (registerInstr rs rt rd shamt funct).wellFormed = true := by
  unfold registerInstr
  split_ifs <;> simp [Instr.wellFormed, functUnknown, knownFuncts, *]

theorem immediateInstr_wellFormed {op : BitVec 6} (rs rt : Reg) {imm : Int} (hzero : op ≠ 0)
    (hjump : op ∉ jumpSet) (himm : immInRange imm = true) :
    (immediateInstr op rs rt imm).wellFormed = true := by
  unfold immediateInstr
  have hne : ¬ op = 0#6 := hzero
  split_ifs <;> simp [Instr.wellFormed, opUnknown, knownOps, *]

theorem registerInstr_of_functUnknown {funct : BitVec 6} (rs rt rd shamt : Reg)
    (h : functUnknown funct = true) :
    registerInstr rs rt rd shamt funct = .unknownFunct rs rt rd shamt funct := by
  simp only [functUnknown, knownFuncts, decide_eq_true_eq, List.mem_cons, List.not_mem_nil, or_false,
    not_or] at h
  simp [registerInstr, h]

theorem immediateInstr_of_not_mem_knownOps {op : BitVec 6} (rs rt : Reg) (imm : Int)
    (h : op ∉ knownOps) : immediateInstr op rs rt imm = .unknownOp op rs rt imm := by
  simp only [knownOps, List.mem_cons, List.not_mem_nil, or_false, not_or] at h
  simp [immediateInstr, h]

theorem immInRange_iff (imm : Int) : immInRange imm = true ↔ -32768 ≤ imm ∧ imm ≤ 32767 := by
  simp [immInRange]

theorem sext16_ofInt {imm : Int} (h : immInRange imm = true) : sext16 (BitVec.ofInt 16 imm) = imm := by
  obtain ⟨hlow, hhigh⟩ := (immInRange_iff imm).1 h
  rw [sext16_eq_toInt, BitVec.toInt_ofInt_eq_self (by decide) hlow (Int.lt_add_one_of_le hhigh)]

theorem ofInt_sext16 (v : BitVec 16) : BitVec.ofInt 16 (sext16 v) = v := by
  rw [sext16_eq_toInt, BitVec.ofInt_toInt]

theorem immInRange_sext16 (v : BitVec 16) : immInRange (sext16 v) = true :=
  (immInRange_iff _).2 ⟨neg_32768_le_sext16 v, sext16_le_32767 v⟩

theorem decode_encode_immediateInstr {op : BitVec 6} (rs rt : Reg) {imm : Int} (hzero : op ≠ 0)
    (hjump : op ∉ jumpSet) (himm : immInRange imm = true) :
    decode (encode (immediateInstr op rs rt imm)) = .instr (immediateInstr op rs rt imm) := by
  rw [encode_immediateInstr, decode_immediateWord rs rt imm hzero hjump, sext16_ofInt himm]

theorem decode_encode_registerInstr (rs rt rd shamt : Reg) (funct : BitVec 6) :
    decode (encode (registerInstr rs rt rd shamt funct)) =
      .instr (registerInstr rs rt rd shamt funct) := by
  rw [encode_registerInstr, decode_registerWord]

/-- Settles O8: each instruction is what the code tables give for its own code, and an unknown code is
none of the tables'. -/
theorem decodeEncodeAgree : Obligations.DecodeEncodeAgree := by
  intro i hi
  cases i with
  | add rs rt rd shamt => exact decode_encode_registerInstr rs rt rd shamt functAdd
  | sub rs rt rd shamt => exact decode_encode_registerInstr rs rt rd shamt functSub
  | and rs rt rd shamt => exact decode_encode_registerInstr rs rt rd shamt functAnd
  | or rs rt rd shamt => exact decode_encode_registerInstr rs rt rd shamt functOr
  | slt rs rt rd shamt => exact decode_encode_registerInstr rs rt rd shamt functSlt
  | unknownFunct rs rt rd shamt funct =>
    rw [← registerInstr_of_functUnknown rs rt rd shamt hi]
    exact decode_encode_registerInstr rs rt rd shamt funct
  | addi rs rt imm => exact decode_encode_immediateInstr (op := opAddi) rs rt (by decide) (by decide) hi
  | lw rs rt imm => exact decode_encode_immediateInstr (op := opLw) rs rt (by decide) (by decide) hi
  | sw rs rt imm => exact decode_encode_immediateInstr (op := opSw) rs rt (by decide) (by decide) hi
  | beq rs rt imm => exact decode_encode_immediateInstr (op := opBeq) rs rt (by decide) (by decide) hi
  | bne rs rt imm => exact decode_encode_immediateInstr (op := opBne) rs rt (by decide) (by decide) hi
  | unknownOp op rs rt imm =>
    simp only [Instr.wellFormed, opUnknown, Bool.and_eq_true, decide_eq_true_eq] at hi
    obtain ⟨⟨⟨hzero, hjump⟩, hknown⟩, himm⟩ := hi
    rw [← immediateInstr_of_not_mem_knownOps rs rt imm hknown]
    exact decode_encode_immediateInstr rs rt hzero hjump himm
  | j addr => exact decode_jumpWord addr

theorem jumpWord_fields (w : Word) : jumpWord (fieldOp w) (fieldAddr w) = w := by
  ext i hi; interval_cases i <;> simp [jumpWord, fieldOp, fieldAddr]

theorem immediateWord_fields (w : Word) :
    immediateWord (fieldOp w) (fieldRs w) (fieldRt w) (sext16 (fieldImm w)) = w := by
  rw [immediateWord, ofInt_sext16]
  ext i hi; interval_cases i <;> simp [fieldOp, fieldRs, fieldRt, fieldImm]

theorem op_or_registerWord_fields (w : Word) : ((fieldOp w).setWidth 32 <<< 26) |||
    registerWord (fieldRs w) (fieldRt w) (fieldRd w) (fieldShamt w) (fieldFunct w) = w := by
  ext i hi
  interval_cases i <;> simp [registerWord, fieldOp, fieldRs, fieldRt, fieldRd, fieldShamt, fieldFunct]

theorem registerWord_fields {w : Word} (h : fieldOp w = 0) :
    registerWord (fieldRs w) (fieldRt w) (fieldRd w) (fieldShamt w) (fieldFunct w) = w := by
  simpa [h] using op_or_registerWord_fields w

/-- Settles O9: in each format the decoded fields are all of the word, so the encoder rebuilds it. -/
theorem everyWordIsAnInstruction : Obligations.EveryWordIsAnInstruction := by
  intro w
  by_cases hzero : fieldOp w = 0
  · exact ⟨_, decode_of_op_eq_zero hzero, registerInstr_wellFormed _ _ _ _ _,
      (encode_registerInstr _ _ _ _ _).trans (registerWord_fields hzero)⟩
  by_cases hjump : fieldOp w ∈ jumpSet
  · have hop : fieldOp w = opJ := List.mem_singleton.1 hjump
    exact ⟨_, decode_of_op_mem_jumpSet hjump, rfl,
      (congrArg (jumpWord · (fieldAddr w)) hop.symm).trans (jumpWord_fields w)⟩
  · exact ⟨_, decode_of_op_other hzero hjump,
      immediateInstr_wellFormed _ _ hzero hjump (immInRange_sext16 _),
      (encode_immediateInstr _ _ _ _).trans (immediateWord_fields w)⟩

end Sys2Proof
end

section
/-! What an instruction reads (spec/10_state.md R21, spec/30_encoding.md R83). With `nextPc` and
`sideEffect` the value below says all that a dispatch computes, and each is a function of the sources. -/

namespace Sys2Proof.Machine

/-- The value `i` gives to its destination register in `s` (`exec_readReg_dest`), 0 where it has none. -/
def destValue (i : Instr) (s : State) : Word :=
  match i with
  | .add rs rt _ _ => aluAdd (s.readReg rs) (s.readReg rt)
  | .sub rs rt _ _ => aluSub (s.readReg rs) (s.readReg rt)
  | .and rs rt _ _ => aluAnd (s.readReg rs) (s.readReg rt)
  | .or rs rt _ _ => aluOr (s.readReg rs) (s.readReg rt)
  | .slt rs rt _ _ => aluSlt (s.readReg rs) (s.readReg rt)
  | .addi rs _ imm => aluAddImm (s.readReg rs) imm
  | .lw rs _ imm => s.memRead (s.dataKey rs imm)
  | _ => 0

theorem exec_readReg_dest {i : Instr} {s t : State} {r : Reg} (h : exec i s = .next t)
    (hdest : i.dest = some r) : t.readReg r = if r = 0 then 0 else destValue i s := by
  cases i with
  | unknownFunct | sw | beq | bne | unknownOp | j => cases hdest
  | _ =>
    cases hdest
    cases commit_next h
    rw [committed_readReg, State.readReg_writeReg, if_pos rfl]
    rfl

/-- The data memory `i` leaves in `s` (`exec_dmem`). -/
def nextDmem (i : Instr) (s : State) : Memory :=
  match i with
  | .sw rs rt imm => s.dmem.write (s.dataKey rs imm) (s.readReg rt)
  | _ => s.dmem

theorem exec_dmem {i : Instr} {s t : State} (h : exec i s = .next t) : t.dmem = nextDmem i s := by
  cases i with
  | sw rs rt imm => cases commit_next h; rfl
  | _ => exact onlyStoresChangeMemory _ s t h nofun

section Congr
variable {i : Instr} {s s' : State}

theorem readReg_eq_of_agree_pair {rs rt : Reg} (h : ∀ r ∈ [rs, rt], s.readReg r = s'.readReg r) :
    s.readReg rs = s'.readReg rs ∧ s.readReg rt = s'.readReg rt :=
  ⟨h rs (by simp), h rt (by simp)⟩

theorem nextPc_congr (hsrc : ∀ r ∈ i.sources, s.readReg r = s'.readReg r) (hpc : s.pc = s'.pc) :
    nextPc i s = nextPc i s' := by
  cases i with
  | beq | bne =>
    obtain ⟨hrs, hrt⟩ := readReg_eq_of_agree_pair hsrc
    simp only [nextPc, hrs, hrt, hpc]
  | _ => simp only [nextPc, hpc]

theorem destValue_congr (hsrc : ∀ r ∈ i.sources, s.readReg r = s'.readReg r) (hcfg : s.cfg = s'.cfg)
    (hdmem : s.dmem = s'.dmem) : destValue i s = destValue i s' := by
  cases i with
  | add | sub | and | or | slt =>
    obtain ⟨hrs, hrt⟩ := readReg_eq_of_agree_pair hsrc
    simp only [destValue, hrs, hrt]
  | addi rs rt imm => simp only [destValue, hsrc rs List.mem_cons_self]
  | lw rs rt imm =>
    have hkey := State.dataKey_congr imm hcfg (hsrc rs List.mem_cons_self)
    simp only [destValue, State.memRead, hkey, hdmem]
  | _ => rfl

theorem sideEffect_congr (hsrc : ∀ r ∈ i.sources, s.readReg r = s'.readReg r) (hcfg : s.cfg = s'.cfg)
    (hdmem : s.dmem = s'.dmem) : sideEffect i s = sideEffect i s' := by
  cases i with
  | lw rs rt imm =>
    have hkey := State.dataKey_congr imm hcfg (hsrc rs List.mem_cons_self)
    simp only [sideEffect, State.memRead, hkey, hdmem]
  | sw rs rt imm =>
    obtain ⟨hrs, hrt⟩ := readReg_eq_of_agree_pair hsrc
    simp only [sideEffect, State.dataKey_congr imm hcfg hrs, hrt]
  | _ => rfl

theorem nextDmem_congr (hsrc : ∀ r ∈ i.sources, s.readReg r = s'.readReg r) (hcfg : s.cfg = s'.cfg)
    (hdmem : s.dmem = s'.dmem) : nextDmem i s = nextDmem i s' := by
  cases i with
  | sw rs rt imm =>
    obtain ⟨hrs, hrt⟩ := readReg_eq_of_agree_pair hsrc
    simp only [nextDmem, State.dataKey_congr imm hcfg hrs, hrt, hdmem]
  | _ => exact hdmem

end Congr

/-- Settles O49: the pc, the memory, the record and the destination's value are each a function of the
sources, the configuration, the pc and the memory. -/
theorem onlySourcesAreRead : Obligations.OnlySourcesAreRead := by
  intro i s s' t t' hsrc hcfg hpc hdmem h h'
  refine ⟨?_, ?_, ?_, fun r hdest => ?_⟩
  · rw [exec_pc h, exec_pc h', nextPc_congr hsrc hpc]
  · rw [exec_dmem h, exec_dmem h', nextDmem_congr hsrc hcfg hdmem]
  · rw [exec_effect h, exec_effect h', sideEffect_congr hsrc hcfg hdmem]
  · rw [exec_readReg_dest h hdest, exec_readReg_dest h' hdest, destValue_congr hsrc hcfg hdmem]

end Sys2Proof.Machine
end

section
/-! One step of a machine, case by case (spec/40_execution_cycle.md R100 to R109): halted, out of range,
or a dispatched instruction with its record. -/

namespace Sys2Proof.Machine

/-- What the frame makes of a dispatch's answer (`step_of_fetched`): the "ok" record of R107 on a next
state, anything else passed on. -/
def reported (pcBefore : Int) (w : Word) (d : Decoded) :
    Host.Outcome State Fault Refusal → Host.Outcome State Fault Refusal
  | .next t => .next (reportOk pcBefore w d t)
  | .fault r => .fault r
  | .refused r => .refused r

section Step
variable {s : State}

theorem step_of_fetch_none (hs : s.halted = false) (hw : fetchWord s = none) :
    step s = .next (raiseStatus s (.pcOutOfRange s.pc)) := by
  simp [step, cycle, hs, hw]

theorem step_of_fetched {w : Word} {i : Instr} (hs : s.halted = false) (hw : fetchWord s = some w)
    (hi : decode w = .instr i) : step s = reported s.pc w (.instr i) (exec i s) := by
  simp only [step, cycle, hs, hw, hi, Bool.false_eq_true, if_false]
  cases exec i s <;> rfl

end Step

/-- Settles O30: the frame around the dispatch of the decoded word. -/
theorem stepRunsDecodedInstruction : Obligations.StepRunsDecodedInstruction := by
  intro s w i hs hw hi
  rw [step_of_fetched hs hw hi]
  cases exec i s <;> rfl

/-- Settles O31: the halted check comes first. -/
theorem haltedStepChangesNothing : Obligations.HaltedStepChangesNothing :=
  fun _ hs => ⟨none, step_of_halted hs⟩

/-- A dispatch answers a next state, or refuses an unknown function code by the policy (R135). -/
theorem exec_answers (i : Instr) (s : State) :
    (∃ t, exec i s = .next t) ∨
    (exec i s = .refused .unknownFunct ∧ s.cfg.unknownPolicy = .refuse ∧
      ∃ rs rt rd shamt funct, i = .unknownFunct rs rt rd shamt funct) := by
  cases i with
  | unknownFunct rs rt rd shamt funct =>
    simp only [exec, execUnknownFunct]
    cases s.cfg.unknownPolicy with
    | nop => exact .inl ⟨_, rfl⟩
    | refuse => exact .inr ⟨rfl, rfl, rs, rt, rd, shamt, funct, rfl⟩
  | _ => exact .inl ⟨_, rfl⟩

/-- Settles O47: the two statuses are next states, and of the dispatches only that of an unknown function
code can be refused. -/
theorem stepNeverStops : Obligations.StepNeverStops := by
  intro s
  cases hs : s.halted with
  | true => exact .inl ⟨_, _, step_of_halted hs, rfl⟩
  | false =>
    cases hw : fetchWord s with
    | none => exact .inl ⟨_, _, step_of_fetch_none hs hw, rfl⟩
    | some w =>
      obtain ⟨i, hi⟩ := decode_instr w
      rw [step_of_fetched hs hw hi]
      obtain ⟨t, ht⟩ | ⟨href, hpolicy, rs, rt, rd, shamt, funct, rfl⟩ := exec_answers i s
      · rw [ht]
        exact .inl ⟨_, _, rfl, rfl⟩
      · rw [href]
        exact .inr ⟨rfl, hpolicy, rfl, w, rs, rt, rd, shamt, funct, rfl, hi⟩

/-- The output fields of the state before reach a dispatch's next state in `result` alone, which the
record of the step replaces. -/
theorem reported_exec_of_reports (i : Instr) (s : State) (e : Option Effect) (r : Option StepResult)
    (pcBefore : Int) (w : Word) (d : Decoded) :
    reported pcBefore w d (exec i { s with effect := e, result := r }) =
      reported pcBefore w d (exec i s) := by
  cases i with
  | unknownFunct =>
    simp only [exec, execUnknownFunct]
    cases s.cfg.unknownPolicy <;> rfl
  | _ => rfl

/-- Settles O48: each of the three kinds of step writes both output fields anew. -/
theorem reportsAreNotRead : Obligations.ReportsAreNotRead := by
  intro s e r
  obtain hs | hs := Bool.eq_false_or_eq_true s.halted
  · calc step { s with effect := e, result := r } = .next (reportHalted s) := step_of_halted hs
      _ = step s := (step_of_halted hs).symm
  · cases hw : fetchWord s with
    | none =>
      calc step { s with effect := e, result := r }
        _ = .next (raiseStatus s (.pcOutOfRange s.pc)) := step_of_fetch_none hs hw
        _ = step s := (step_of_fetch_none hs hw).symm
    | some w =>
      obtain ⟨i, hi⟩ := decode_instr w
      calc step { s with effect := e, result := r }
        _ = reported s.pc w (.instr i) (exec i { s with effect := e, result := r }) :=
          step_of_fetched hs hw hi
        _ = reported s.pc w (.instr i) (exec i s) := reported_exec_of_reports ..
        _ = step s := (step_of_fetched hs hw hi).symm

theorem exec_stepCount {i : Instr} {s t : State} (h : exec i s = .next t) :
    t.stepCount = s.stepCount + 1 := by
  obtain ⟨u, e, p, rfl, rfl | ⟨r, v, -, rfl⟩ | ⟨rs, rt, imm, -, rfl⟩⟩ := exec_next h <;> rfl

/-- Settles O34: only a dispatched instruction commits, and its record is taken of the state committed. -/
theorem commitCountsOkSteps : Obligations.CommitCountsOkSteps := by
  intro s t h
  obtain ⟨-, rfl⟩ | ⟨-, -, rfl⟩ | ⟨-, w, i, u, hw, hi, hu, rfl⟩ := step_next h
  · exact .inr ⟨rfl, _, rfl, rfl⟩
  · exact .inr ⟨rfl, _, rfl, rfl⟩
  · exact .inl ⟨w, i, hw, hi, (exec_stepCount hu :), (exec_readReg_zero hu :), rfl⟩

end Sys2Proof.Machine
end

section
/-! The fetch-range check (spec/40_execution_cycle.md R102, spec/60_exceptions.md R204). -/

namespace Sys2Proof.Machine

section Fetch
variable {s : State}

theorem fetchWord_of_index_neg (h : (s.pc - s.cfg.base) / 4 < 0) : fetchWord s = none := by
  have hoff : s.pc - s.cfg.base < 0 := by omega
  simp only [fetchWord, fetchIndex, if_pos hoff]

/-- From the base on fetch is the list's own lookup, which answers none past the end. -/
theorem fetchWord_of_index_nonneg (h : 0 ≤ (s.pc - s.cfg.base) / 4) :
    fetchWord s = s.cfg.imem[((s.pc - s.cfg.base) / 4).toNat]? := by
  have hoff : ¬ s.pc - s.cfg.base < 0 := by omega
  simp only [fetchWord, fetchIndex, if_neg hoff]
  by_cases hlt : ((s.pc - s.cfg.base) / 4).toNat < s.cfg.imem.length
  · rw [if_pos hlt]
  · rw [if_neg hlt, List.getElem?_eq_none (Nat.le_of_not_lt hlt)]

theorem fetchWord_of_index_outOfRange
    (h : (s.pc - s.cfg.base) / 4 < 0 ∨ (s.cfg.imem.length : Int) ≤ (s.pc - s.cfg.base) / 4) :
    fetchWord s = none := by
  obtain hneg | htop := h
  · exact fetchWord_of_index_neg hneg
  · rw [fetchWord_of_index_nonneg (by omega), List.getElem?_eq_none (by omega)]

end Fetch

/-- Settles O32: the lookup fails exactly outside the program, and there the step raises the status. -/
theorem fetchRangeRule : Obligations.FetchRangeRule := by
  intro s hs
  refine ⟨fun hout => ⟨none, step_of_fetch_none hs (fetchWord_of_index_outOfRange hout)⟩,
    fun ⟨hlow, hhigh⟩ => ?_, fun haligned => by omega⟩
  have hlt : ((s.pc - s.cfg.base) / 4).toNat < s.cfg.imem.length := by omega
  have hword := List.getElem?_eq_getElem hlt
  exact ⟨_, hword, (fetchWord_of_index_nonneg hlow).trans hword⟩

end Sys2Proof.Machine
end

section
/-! The bounded run (spec/40_execution_cycle.md R112, R113): one induction says how a run of a running
machine ends, and the rules are read off it. -/

namespace Sys2Proof.Machine

theorem run_succ_of_step {s t : State} {r : StepResult} (n : Nat) (hs : s.halted = false)
    (h : step s = .next t) (hr : t.result = some r) :
    run (n + 1) s = (r :: (run n t).1, (run n t).2) := by
  simp [run, hs, h, hr]

theorem run_succ_of_refused {s : State} {q : Refusal} (n : Nat) (hs : s.halted = false)
    (h : step s = .refused q) : run (n + 1) s = ([], .refused q) := by
  simp [run, hs, h]

/-- A running machine's step is "ok", counted, and leaves it running, or is terminal and halts it. -/
theorem step_of_running {s t : State} {r : StepResult} (hs : s.halted = false) (h : step s = .next t)
    (hr : t.result = some r) :
    (r.isOk = true ∧ t.halted = false ∧ t.stepCount = s.stepCount + 1) ∨
    (r.isTerminal = true ∧ t.halted = true) := by
  obtain ⟨hs', -⟩ | ⟨-, -, rfl⟩ | ⟨-, w, i, u, -, -, hu, rfl⟩ := step_next h
  · simp [hs] at hs'
  · cases hr
    exact .inr ⟨rfl, rfl⟩
  · cases hr
    exact .inl ⟨rfl, (exec_halted hu).trans hs, (exec_stepCount hu :)⟩

/-- How a run of `n` steps from the running state `s` can end (`runEnd_run`): the results and the outcome. -/
inductive RunEnd (n : Nat) (s : State) : List StepResult → Host.Outcome State Fault Refusal → Prop where
  /-- The budget is spent and the machine still runs. -/
  | running {oks : List StepResult} {t : State} (hok : ∀ q ∈ oks, q.isOk = true)
      (hlen : oks.length = n) (hhalted : t.halted = false) (hcount : t.stepCount = s.stepCount + n) :
      RunEnd n s oks (.next t)
  /-- The last step was terminal. -/
  | terminal {oks : List StepResult} {r : StepResult} {t : State} (hok : ∀ q ∈ oks, q.isOk = true)
      (hlen : oks.length < n) (hr : r.isTerminal = true) (hhalted : t.halted = true) :
      RunEnd n s (oks ++ [r]) (.next t)
  /-- A step was refused (R135). -/
  | refused {oks : List StepResult} {q : Refusal} (hok : ∀ q ∈ oks, q.isOk = true)
      (hlen : oks.length < n) (hpolicy : s.cfg.unknownPolicy = .refuse) :
      RunEnd n s oks (.refused q)

/-- An "ok" step before a run. -/
theorem RunEnd.cons {n : Nat} {s t : State} {r : StepResult} {rs : List StepResult}
    {o : Host.Outcome State Fault Refusal} (h : RunEnd n t rs o) (hr : r.isOk = true)
    (hcfg : t.cfg = s.cfg) (hcount : t.stepCount = s.stepCount + 1) : RunEnd (n + 1) s (r :: rs) o := by
  cases h with
  | running hok hlen hhalted hcount' =>
    exact .running (List.forall_mem_cons.2 ⟨hr, hok⟩) (congrArg (· + 1) hlen) hhalted (by omega)
  | terminal hok hlen hr' hhalted =>
    exact .terminal (List.forall_mem_cons.2 ⟨hr, hok⟩) (Nat.succ_lt_succ hlen) hr' hhalted
  | refused hok hlen hpolicy =>
    exact .refused (List.forall_mem_cons.2 ⟨hr, hok⟩) (Nat.succ_lt_succ hlen) (hcfg ▸ hpolicy)

theorem runEnd_run (n : Nat) {s : State} (hs : s.halted = false) :
    RunEnd n s (run n s).1 (run n s).2 := by
  induction n generalizing s with
  | zero => exact .running (oks := []) nofun rfl hs rfl
  | succ n ih =>
    obtain ⟨t, r, h, hr⟩ | ⟨href, hpolicy, -⟩ := stepNeverStops s
    · rw [run_succ_of_step n hs h hr]
      obtain ⟨hok, ht, hcount⟩ | ⟨hterm, ht⟩ := step_of_running hs h hr
      · exact (ih ht).cons hok (configNeverChanges s t h) hcount
      · rw [run_of_halted n ht]
        exact .terminal (oks := []) nofun (Nat.succ_pos n) hterm ht
    · rw [run_succ_of_refused n hs href]
      exact .refused nofun (Nat.succ_pos n) hpolicy

theorem StepResult.isOk_eq_false_of_isTerminal {r : StepResult} (h : r.isTerminal = true) :
    r.isOk = false := by
  cases r with
  | ok => cases h
  | _ => rfl

section RunEnd
variable {n : Nat} {s : State} {rs : List StepResult} {o : Host.Outcome State Fault Refusal}

theorem RunEnd.length_le (h : RunEnd n s rs o) : rs.length ≤ n := by
  cases h with
  | running _ hlen => exact hlen.le
  | terminal _ hlen => rw [List.length_append]; exact hlen
  | refused _ hlen => exact hlen.le

theorem RunEnd.halted_notMem (h : RunEnd n s rs o) : StepResult.halted ∉ rs := by
  have not_ok {oks : List StepResult} (hok : ∀ q ∈ oks, q.isOk = true) : StepResult.halted ∉ oks :=
    fun hmem => nomatch hok _ hmem
  cases h with
  | running hok => exact not_ok hok
  | terminal hok _ hr =>
    intro hmem
    obtain hmem | hmem := List.mem_append.1 hmem
    · exact not_ok hok hmem
    · cases List.mem_singleton.1 hmem
      cases hr
  | refused hok => exact not_ok hok

theorem RunEnd.dropLast_isOk (h : RunEnd n s rs o) : ∀ r ∈ rs.dropLast, r.isOk = true := by
  intro r hmem
  cases h with
  | running hok => exact hok r (List.mem_of_mem_dropLast hmem)
  | terminal hok =>
    rw [List.dropLast_concat] at hmem
    exact hok r hmem
  | refused hok => exact hok r (List.mem_of_mem_dropLast hmem)

theorem RunEnd.halted_iff_last_isTerminal {t : State} (h : RunEnd n s rs (.next t)) :
    t.halted = true ↔ ∃ r, rs.getLast? = some r ∧ r.isTerminal = true := by
  cases h with
  | running hok _ hhalted =>
    refine ⟨fun ht => by simp [hhalted] at ht, fun ⟨r, hlast, hr⟩ => ?_⟩
    have hokr := hok r (List.mem_of_getLast? hlast)
    simp [StepResult.isOk_eq_false_of_isTerminal hr] at hokr
  | terminal _ _ hr hhalted => exact ⟨fun _ => ⟨_, List.getLast?_concat, hr⟩, fun _ => hhalted⟩

theorem RunEnd.running_iff_all_isOk {t : State} (h : RunEnd n s rs (.next t)) :
    t.halted = false ↔ (rs.length = n ∧ ∀ r ∈ rs, r.isOk = true) := by
  cases h with
  | running hok hlen hhalted => exact ⟨fun _ => ⟨hlen, hok⟩, fun _ => hhalted⟩
  | terminal _ _ hr hhalted =>
    refine ⟨fun ht => by simp [hhalted] at ht, fun ⟨_, hok⟩ => ?_⟩
    have hokr := hok _ List.mem_concat_self
    simp [StepResult.isOk_eq_false_of_isTerminal hr] at hokr

theorem RunEnd.stepCount_of_running {t : State} (h : RunEnd n s rs (.next t)) (ht : t.halted = false) :
    t.stepCount = s.stepCount + n := by
  cases h with
  | running _ _ _ hcount => exact hcount
  | terminal _ _ _ hhalted => simp [hhalted] at ht

theorem RunEnd.next_of_nop (h : RunEnd n s rs o) (hpolicy : s.cfg.unknownPolicy = .nop) :
    ∃ t, o = .next t := by
  cases h with
  | running => exact ⟨_, rfl⟩
  | terminal => exact ⟨_, rfl⟩
  | refused _ _ hrefuse => simp [hpolicy] at hrefuse

end RunEnd

/-- Settles O50: a halted machine makes no step, and a running one's run ends as `RunEnd` says. -/
theorem boundedRunRule : Obligations.BoundedRunRule := by
  intro n s
  refine ⟨rfl, run_of_halted n, fun t r hs h hr => run_succ_of_step n hs h hr, ?_⟩
  cases hs : s.halted with
  | true => simp [run_of_halted n hs]
  | false =>
    have hend := runEnd_run n hs
    exact ⟨hend.length_le, hend.halted_notMem, hend.dropLast_isOk,
      fun t _ ht => (ht ▸ hend).halted_iff_last_isTerminal, hend.next_of_nop⟩

/-- Settles O51: of the ends of a run only the spent budget leaves the machine running. -/
theorem unendingRunFillsBudget : Obligations.UnendingRunFillsBudget := by
  intro n s t rs hs h
  have hend : RunEnd n s rs (.next t) := by simpa only [h] using runEnd_run n hs
  exact ⟨hend.running_iff_all_isOk, hend.stepCount_of_running⟩

end Sys2Proof.Machine
end

section
/-! The register-format instructions (spec/41_register_format.md R130 to R134): each is the shared shape
`registerResult` around one result of the ALU, so a statement is that shape and what the ALU computes. -/

namespace Sys2Proof.Machine

section Alu
variable (a b : Word)

theorem aluAdd_toNat : ((aluAdd a b).toNat : Int) = ((a.toNat : Int) + (b.toNat : Int)) % 2 ^ 32 :=
  wrap32_toNat _

theorem aluSub_toNat : ((aluSub a b).toNat : Int) = ((a.toNat : Int) - (b.toNat : Int)) % 2 ^ 32 :=
  wrap32_toNat _

theorem aluAdd_eq_ofNat : aluAdd a b = BitVec.ofNat 32 ((a.toNat + b.toNat) % 2 ^ 32) := by
  have hvalue := aluAdd_toNat a b
  apply BitVec.eq_of_toNat_eq
  rw [BitVec.toNat_ofNat, Nat.mod_mod]
  exact_mod_cast hvalue

/-- The library's subtraction adds the complement `2 ^ 32 - b` instead, which agrees modulo `2 ^ 32`. -/
theorem aluSub_eq_sub : aluSub a b = a - b := by
  have hvalue := aluSub_toNat a b
  apply BitVec.eq_of_toNat_eq
  rw [BitVec.toNat_sub]
  omega

theorem aluSlt_eq_ite : aluSlt a b = if a.toNat < b.toNat then 1 else 0 := by
  simp [aluSlt, lessUnsigned, unsignedValue]

end Alu

/-- A register-format operation retires with its result in `rd` and only the pc and the count moved on. -/
theorem registerResult_retires (rd : Reg) (v : Word) (s : State) :
    ∃ t, registerResult rd v s = .next t ∧
      Retires s t (withReg s rd v) s.memRead none (s.pc + 4) :=
  ⟨_, rfl, retires_writeReg s rd v none _⟩

/-- Register 0 aside, the destination of a retired instruction holds its result. -/
theorem Retires.readReg_dest {s t : State} {rd : Reg} {v : Word} {mem : Int → Word} {e : Option Effect}
    {pc : Int} (h : Retires s t (withReg s rd v) mem e pc) (hrd : rd ≠ 0) : t.readReg rd = v := by
  rw [h.regs, if_neg hrd, withReg, if_pos rfl]

/-- Settles O15: the ALU's sum is the sum of the unsigned values modulo 2^32. -/
theorem addResult : Obligations.AddResult := by
  intro rs rt rd shamt s
  rw [← aluAdd_eq_ofNat]
  exact registerResult_retires rd _ s

/-- Settles O16: the ALU's difference is that of the words, and its value the integer one modulo 2^32. -/
theorem subResult : Obligations.SubResult := by
  intro rs rt rd shamt s
  rw [← aluSub_eq_sub]
  obtain ⟨t, ht, hret⟩ := registerResult_retires rd (aluSub (s.readReg rs) (s.readReg rt)) s
  refine ⟨t, ht, hret, fun hrd => ?_⟩
  rw [hret.readReg_dest hrd, aluSub_toNat]

/-- Settles O18: the ALU's comparison is that of the unsigned values. -/
theorem sltResult : Obligations.SltResult := by
  intro rs rt rd shamt s
  rw [← aluSlt_eq_ite]
  exact registerResult_retires rd _ s

/-- Settles O17: the ALU's two bitwise results are the words' own by definition. -/
theorem andOrResult : Obligations.AndOrResult := fun rs rt rd _ s =>
  ⟨registerResult_retires rd (aluAnd (s.readReg rs) (s.readReg rt)) s,
    registerResult_retires rd (aluOr (s.readReg rs) (s.readReg rt)) s⟩

end Sys2Proof.Machine
end

section
/-! Decoding a given word by naming the instruction it is the word of (spec/30_encoding.md R82). -/

namespace Sys2Proof

theorem decode_of_encode_eq {i : Instr} {w : Word} (hi : i.wellFormed = true) (hw : encode i = w) :
    decode w = .instr i :=
  hw ▸ decodeEncodeAgree i hi

/-- Settles O14: each word is the encoder's word of the well-formed instruction listed for it. -/
theorem sampleWordsDecode : Obligations.SampleWordsDecode := by
  and_intros <;> exact decode_of_encode_eq (by decide) (by decide)

end Sys2Proof
end

section
/-! The immediate-format instructions without a memory access (spec/42_immediate_format.md R150, R153 to
R155): addi commits one register write, the others commit the state as it is. -/

namespace Sys2Proof.Machine

theorem aluAddImm_toNat (a : Word) (imm : Int) :
    ((aluAddImm a imm).toNat : Int) = ((a.toNat : Int) + imm) % 2 ^ 32 :=
  wrap32_toNat _

theorem aluAddImm_eq_add (a : Word) (imm : Int) : aluAddImm a imm = a + BitVec.ofInt 32 imm := by
  rw [aluAddImm, wrap32, unsignedValue, BitVec.ofInt_add, BitVec.ofInt_natCast, BitVec.ofNat_toNat,
    BitVec.setWidth_eq]

/-- The target range of R153; the lower end is the taken branch at `-32768`, the upper that at `32767`. -/
theorem branchPc_range (taken : Bool) (pc : Int) {imm : Int} (h : immInRange imm = true) :
    pc - 131068 ≤ branchPc taken pc imm ∧ branchPc taken pc imm ≤ pc + 131072 := by
  obtain ⟨hlow, hhigh⟩ := (immInRange_iff imm).1 h
  cases taken with
  | false => simp only [branchPc, sequentialPc, Bool.false_eq_true, if_false]; omega
  | true => simp only [branchPc, branchTarget, if_true]; omega

/-- What the two branches share: whatever the test gave, only the pc and the count move on, and a
decodable offset keeps the pc in range. -/
theorem commit_branchPc_retires (taken : Bool) (imm : Int) (s : State) :
    ∃ t, commit s none (branchPc taken s.pc imm) = .next t ∧
      Retires s t s.readReg s.memRead none (branchPc taken s.pc imm) ∧
      (immInRange imm = true → s.pc - 131068 ≤ t.pc ∧ t.pc ≤ s.pc + 131072) :=
  ⟨_, rfl, retires_committed s none _, branchPc_range taken s.pc⟩

/-- Settles O21: addi is a commit after one register write, of the ALU's sum with the immediate, which is
that of the words and has the integer sum's value modulo 2^32. -/
theorem addiResult : Obligations.AddiResult := by
  intro rs rt imm s
  rw [← aluAddImm_eq_add]
  have hret := retires_writeReg s rt (aluAddImm (s.readReg rs) imm) none (sequentialPc s.pc)
  refine ⟨_, rfl, hret, fun hrt => ?_⟩
  rw [hret.readReg_dest hrt, aluAddImm_toNat]

/-- Settles O25: the shape of a branch, with the test of equality. -/
theorem branchEqualResult : Obligations.BranchEqualResult := by
  intro rs rt imm s
  rw [← nextPc_beq]
  exact commit_branchPc_retires (testEqual (s.readReg rs) (s.readReg rt)) imm s

/-- Settles O26: the shape of a branch, with the test of inequality. -/
theorem branchNotEqualResult : Obligations.BranchNotEqualResult := by
  intro rs rt imm s
  rw [ite_not, ← nextPc_bne]
  exact commit_branchPc_retires (testNotEqual (s.readReg rs) (s.readReg rt)) imm s

/-- Settles O27: an unknown opcode commits the state as it is at the sequential pc. -/
theorem unknownOpAdvances : Obligations.UnknownOpAdvances := fun _ _ _ _ s =>
  ⟨_, rfl, retires_committed s none (sequentialPc s.pc)⟩

end Sys2Proof.Machine
end

section
/-! The jump-format instruction (spec/43_jump_format.md R180). At bit 28 the mask `0xF0000000` is 15 above 0
and `0x0FFFFFFF` is 0 above `2^28 - 1`, so a target's quotient by `2^28` comes from the pc alone and its
remainder from the address field alone. -/

namespace Sys2Proof.Machine

theorem regionMask_or_offsetMask_div (m n : Nat) :
    ((m &&& 0xF0000000) ||| (n &&& 0x0FFFFFFF)) / 2 ^ 28 = m / 2 ^ 28 % 2 ^ 4 := by
  have hregion : (m &&& 0xF0000000) / 2 ^ 28 = m / 2 ^ 28 % 2 ^ 4 := by
    rw [Nat.and_div_two_pow, ← Nat.and_two_pow_sub_one_eq_mod]
  have hoffset : (n &&& 0x0FFFFFFF) / 2 ^ 28 = 0 := Nat.div_eq_of_lt (Nat.and_lt_two_pow n (by decide))
  rw [Nat.or_div_two_pow, hregion, hoffset, Nat.or_zero]

theorem regionMask_or_offsetMask_mod (m n : Nat) :
    ((m &&& 0xF0000000) ||| (n &&& 0x0FFFFFFF)) % 2 ^ 28 = n % 2 ^ 28 := by
  have hregion : (m &&& 0xF0000000) % 2 ^ 28 = 0 := by
    rw [Nat.and_mod_two_pow]
    exact Nat.and_zero _
  have hoffset : (n &&& 0x0FFFFFFF) % 2 ^ 28 = n % 2 ^ 28 := by
    rw [← Nat.and_two_pow_sub_one_eq_mod n, Nat.mod_eq_of_lt (Nat.and_lt_two_pow n (by decide))]
  rw [Nat.or_mod_two_pow, hregion, hoffset, Nat.zero_or]

/-- The region of a target, whatever the pc: the pc's own, narrowed to the 16 regions of 32 bits. -/
theorem jumpTarget_ediv_region (pc : Int) (addr : BitVec 26) :
    jumpTarget pc addr / 2 ^ 28 = pc / 2 ^ 28 % 16 := by
  have hmask := regionMask_or_offsetMask_div (pc % 4294967296).toNat (addr.toNat <<< 2)
  unfold jumpTarget
  omega

/-- The place of a target in its region, whatever the pc: a shifted address field is below `2^28`. -/
theorem jumpTarget_emod_region (pc : Int) (addr : BitVec 26) :
    jumpTarget pc addr % 2 ^ 28 = addr.toNat * 4 := by
  have hmask := regionMask_or_offsetMask_mod (pc % 4294967296).toNat (addr.toNat <<< 2)
  unfold jumpTarget
  omega

/-- Settles O28: j commits the state as it is at the jump target. -/
theorem jumpResult : Obligations.JumpResult := fun addr s =>
  ⟨⟨_, rfl, retires_committed s none (jumpTarget s.pc addr)⟩, jumpTarget_of_nonneg addr⟩

/-- Settles O29: a 32-bit pc lies in one of the 16 regions, so narrowing its region changes nothing. -/
theorem jumpStaysInRegion : Obligations.JumpStaysInRegion := by
  intro addr pc hlow hhigh
  have hregion : pc / 2 ^ 28 % 16 = pc / 2 ^ 28 := by omega
  exact ⟨jumpTarget_emod_four pc addr, (jumpTarget_ediv_region pc addr).trans hregion,
    jumpTarget_emod_region pc addr⟩

end Sys2Proof.Machine
end

section
/-! The terminal statuses (spec/60_exceptions.md R202, R203, R209): whichever is reported, the step leaves
the state of `raiseStatus`. -/

namespace Sys2Proof.Machine

/-- A halted machine's flag is already set, so "halted" leaves what any raised status would (R203). -/
theorem reportHalted_eq_raiseStatus {s : State} (h : s.halted = true) :
    reportHalted s = raiseStatus s .halted := by
  rw [raiseStatus, ← h, reportHalted]

theorem step_eq_raiseStatus_of_isTerminal {s t : State} {r : StepResult} (h : step s = .next t)
    (hr : t.result = some r) (hterm : r.isTerminal = true) : t = raiseStatus s r := by
  obtain ⟨hs, rfl⟩ | ⟨-, -, rfl⟩ | ⟨-, w, i, u, -, -, -, rfl⟩ := step_next h
  · cases hr
    exact reportHalted_eq_raiseStatus hs
  · cases hr
    rfl
  · cases hr
    cases hterm

/-- Settles O46: a terminal step leaves the raised status, which has no side effect. -/
theorem terminalStepFreezes : Obligations.TerminalStepFreezes := fun _ _ _ h hr hterm =>
  ⟨none, step_eq_raiseStatus_of_isTerminal h hr hterm⟩

end Sys2Proof.Machine
end

section
/-! Reset and the static decoding (spec/70_reset_and_hazards.md R234, R235): both rest on the load alone,
because no step changes the configuration it set. -/

namespace Sys2Proof.Machine

theorem run_cfg {n : Nat} {s t : State} {rs : List StepResult} (h : run n s = (rs, .next t)) :
    t.cfg = s.cfg := by
  induction n generalizing s rs with
  | zero => cases h; rfl
  | succ n ih =>
    obtain ⟨-, rfl, -⟩ | ⟨m, u, r, rs', hm, -, hstep, -, -, hrun⟩ := run_next h
    · rfl
    · cases hm
      exact (ih hrun).trans (configNeverChanges s u hstep)

/-- Settles O5: reset rebuilds the initial state of a configuration that the run kept. -/
theorem resetRestoresLoad : Obligations.ResetRestoresLoad := by
  intro p words base t s n rs hload hrun
  have hcfg : s.cfg = t.cfg := run_cfg hrun
  rw [reload, hcfg]
  obtain ⟨-, rfl⟩ := load_next hload
  rfl

@[simp] theorem staticDecoding_length (ws : List Word) (b : Int) :
    (staticDecoding ws b).length = ws.length := by
  induction ws generalizing b with
  | nil => rfl
  | cons w ws ih => simp only [staticDecoding, List.length_cons, ih]

theorem staticDecoding_getElem? {ws : List Word} {k : Nat} {w : Word} (b : Int)
    (h : ws[k]? = some w) : (staticDecoding ws b)[k]? = some (b + 4 * k, decode w) := by
  induction ws generalizing b k with
  | nil => cases h
  | cons v ws ih =>
    cases k with
    | zero =>
      cases h
      simp [staticDecoding]
    | succ k =>
      have hpc : b + 4 + 4 * (k : Int) = b + 4 * ((k + 1 : Nat) : Int) := by omega
      rw [← hpc]
      exact ih (b + 4) h

/-- The listing of a load is that of the words in its machine, from its base on. -/
theorem loadWithListing_next {p : Params} {words : List Int} {base : Option Int} {t : State}
    {listing : List (Int × Decoded)} (h : loadWithListing p words base = .next (t, listing)) :
    load p words base = .next t ∧ listing = staticDecoding t.cfg.imem t.cfg.base := by
  unfold loadWithListing at h
  split at h
  · cases h
    exact ⟨‹_›, rfl⟩
  · cases h
  · cases h

/-- At the k-th pc of the program fetch gives the k-th word. -/
theorem fetchWord_of_pc_eq {s : State} {k : Nat} (h : s.pc = s.cfg.base + 4 * k) :
    fetchWord s = s.cfg.imem[k]? := by
  have hindex : (s.pc - s.cfg.base) / 4 = k := by omega
  rw [fetchWord_of_index_nonneg (by omega), hindex, Int.toNat_natCast]

/-- A running machine's step at a fetched word reports that word with its decoding (R104, R107). -/
theorem step_result_of_fetched {s u : State} {w : Word} (hs : s.halted = false)
    (hw : fetchWord s = some w) (h : step s = .next u) :
    u.result = some (.ok s.pc w (decode w) u.stepCount u.effect u.regs) := by
  obtain ⟨hs', -⟩ | ⟨-, hnone, -⟩ | ⟨-, w', i, t, hw', hi, -, rfl⟩ := step_next h
  · simp [hs] at hs'
  · simp [hw] at hnone
  · cases hw.symm.trans hw'
    rw [hi]
    rfl

/-- Settles O7: the listing and the step both decode the word that the pc's index selects. -/
theorem staticDecodingAgrees : Obligations.StaticDecodingAgrees := by
  intro p words base t listing h
  obtain ⟨hload, rfl⟩ := loadWithListing_next h
  refine ⟨hload, ?_, fun k w hw => ⟨?_, fun s u hcfg hs hpc hstep => ?_⟩⟩
  · obtain ⟨-, rfl⟩ := load_next hload
    simp [State.initial]
  · have hbase : t.cfg.base = base.getD p.defaultBase := by
      obtain ⟨-, rfl⟩ := load_next hload
      rfl
    rw [← hbase]
    exact staticDecoding_getElem? t.cfg.base hw
  · rw [← hcfg] at hw hpc
    exact step_result_of_fetched hs ((fetchWord_of_pc_eq hpc).trans hw) hstep

end Sys2Proof.Machine
end

section
/-! Load (spec/70_reset_and_hazards.md R231 to R233): the preconditions decide between the two answers. -/

namespace Sys2Proof.Machine

section Load
variable {p : Params} {words : List Int} {base : Option Int}

theorem load_of_admitted (h : loadAdmitted words (base.getD p.defaultBase)) :
    load p words base = .next (State.initial
      { base := base.getD p.defaultBase, imem := words.map wrap32, eaWrap := p.eaWrap,
        unknownPolicy := p.unknownPolicy }) :=
  if_pos h

theorem load_of_not_admitted (h : ¬ loadAdmitted words (base.getD p.defaultBase)) :
    load p words base = .refused .loadRefused :=
  if_neg h

end Load

/-- Integers that are 32-bit values are kept whole by the instruction memory. -/
theorem map_toNat_map_wrap32 {words : List Int} (h : ∀ w ∈ words, 0 ≤ w ∧ w < 4294967296) :
    (words.map wrap32).map (fun w => (w.toNat : Int)) = words := by
  calc (words.map wrap32).map (fun w => (w.toNat : Int))
    _ = words.map fun w => ((wrap32 w).toNat : Int) := List.map_map
    _ = words.map id := List.map_congr_left fun w hw =>
      (wrap32_toNat w).trans (Int.emod_eq_of_lt (h w hw).1 (h w hw).2)
    _ = words := List.map_id words

/-- Settles O3: the preconditions on base and length are those of an admitted configuration, with which
the load starts. -/
theorem loadMeetsInvariant : Obligations.LoadMeetsInvariant := by
  intro p words base t h
  obtain ⟨⟨-, haligned, hnonneg, htop⟩, rfl⟩ := load_next h
  exact State.inv_initial ⟨haligned, hnonneg, by simpa using htop⟩

/-- Settles O4: an admitted load answers the initial state, whose words are the integers given. -/
theorem loadRule : Obligations.LoadRule := by
  intro p words base b admitted
  have hadmitted : admitted ↔ loadAdmitted words b := by norm_num [admitted, loadAdmitted]
  rw [hadmitted]
  exact ⟨fun h => ⟨_, load_of_admitted h, State.readReg_initial _, rfl, State.memRead_initial _,
    map_toNat_map_wrap32 h.1, rfl, rfl, rfl, rfl, rfl⟩, load_of_not_admitted⟩

end Sys2Proof.Machine
end

section
/-! The opcode table (spec/30_encoding.md, introduction). A row asks for an opcode, for a function code, or
for nothing; written with the codes it asks for, the table's first match asks what the decoder asks. -/

namespace Sys2Proof

/-- The bits of the opcode. -/
def opMask : Word := 0xFC000000

/-- The bits of the opcode and of the function code. -/
def functMask : Word := 0xFC00003F

/-- A table row that asks for the opcode `op`. -/
def opRow (mnemonic : String) (op : BitVec 6) : TableRow :=
  ⟨mnemonic, op.setWidth 32 <<< 26, opMask⟩

/-- A table row that asks for the register-format opcode and the function code `funct`. -/
def functRow (mnemonic : String) (funct : BitVec 6) : TableRow :=
  ⟨mnemonic, registerWord 0 0 0 0 funct, functMask⟩

theorem opcodeTable_eq : opcodeTable =
    [functRow "add" functAdd, functRow "sub" functSub, functRow "and" functAnd, functRow "or" functOr,
     functRow "slt" functSlt, opRow "addi" opAddi, opRow "lw" opLw, opRow "sw" opSw, opRow "beq" opBeq,
     opRow "bne" opBne, opRow "j" opJ, opRow "unknown(funct)" 0, ⟨"unknown(op)", 0, 0⟩] := by
  decide

section Rows
variable (w : Word)

theorem and_opMask : w &&& opMask = (fieldOp w).setWidth 32 <<< 26 := by
  ext i hi; interval_cases i <;> simp [opMask, fieldOp]

theorem fieldOp_shiftLeft (op : BitVec 6) : fieldOp (op.setWidth 32 <<< 26) = op := by
  ext i hi; interval_cases i <;> simp [fieldOp]

/-- The mask of a function-code row keeps the opcode above the word of the function code alone. -/
theorem and_functMask :
    w &&& functMask = ((fieldOp w).setWidth 32 <<< 26) ||| registerWord 0 0 0 0 (fieldFunct w) := by
  ext i hi; interval_cases i <;> simp [functMask, fieldOp, fieldFunct, registerWord]

theorem fieldOp_and_functMask : fieldOp (w &&& functMask) = fieldOp w := by
  ext i hi; interval_cases i <;> simp [functMask, fieldOp]

theorem fieldFunct_and_functMask : fieldFunct (w &&& functMask) = fieldFunct w := by
  ext i hi; interval_cases i <;> simp [functMask, fieldFunct]

theorem opRow_has_iff (mnemonic : String) (op : BitVec 6) :
    w &&& (opRow mnemonic op).mask = (opRow mnemonic op).pattern ↔ fieldOp w = op := by
  simp only [opRow, and_opMask]
  constructor
  · intro h
    simpa only [fieldOp_shiftLeft] using congrArg fieldOp h
  · rintro rfl
    rfl

theorem functRow_has_iff (mnemonic : String) (funct : BitVec 6) :
    w &&& (functRow mnemonic funct).mask = (functRow mnemonic funct).pattern ↔
      fieldOp w = 0 ∧ fieldFunct w = funct := by
  simp only [functRow]
  constructor
  · intro h
    exact ⟨by rw [← fieldOp_and_functMask, h, fieldOp_registerWord],
      by rw [← fieldFunct_and_functMask, h, fieldFunct_registerWord]⟩
  · rintro ⟨hop, rfl⟩
    simp [and_functMask, hop]

end Rows

/-- The mnemonic of the first match, row by row. -/
theorem map_find?_cons {α β : Type} (p : α → Prop) [DecidablePred p] (f : α → β) (a : α) (l : List α) :
    ((a :: l).find? (fun x => p x)).map f = if p a then some (f a) else (l.find? (fun x => p x)).map f := by
  split_ifs with h <;> simp [h]

/-- The table as a chain of questions about the opcode and the function code. -/
theorem firstRow_eq (w : Word) : firstRow w =
    if fieldOp w = 0 ∧ fieldFunct w = functAdd then some "add"
    else if fieldOp w = 0 ∧ fieldFunct w = functSub then some "sub"
    else if fieldOp w = 0 ∧ fieldFunct w = functAnd then some "and"
    else if fieldOp w = 0 ∧ fieldFunct w = functOr then some "or"
    else if fieldOp w = 0 ∧ fieldFunct w = functSlt then some "slt"
    else if fieldOp w = opAddi then some "addi"
    else if fieldOp w = opLw then some "lw"
    else if fieldOp w = opSw then some "sw"
    else if fieldOp w = opBeq then some "beq"
    else if fieldOp w = opBne then some "bne"
    else if fieldOp w = opJ then some "j"
    else if fieldOp w = 0 then some "unknown(funct)"
    else some "unknown(op)" := by
  have hany : w &&& (0 : Word) = 0 := BitVec.and_zero
  simp only [firstRow, opcodeTable_eq, map_find?_cons, functRow_has_iff, opRow_has_iff, hany,
    if_true]
  rfl

section FirstRow
variable {w : Word}

theorem firstRow_of_op_eq_zero (rs rt rd shamt : Reg) (h : fieldOp w = 0) :
    firstRow w = some (registerInstr rs rt rd shamt (fieldFunct w)).mnemonic := by
  simp only [firstRow_eq, h, true_and, registerInstr, apply_ite Instr.mnemonic, apply_ite some]
  rfl

theorem firstRow_of_op_mem_jumpSet (h : fieldOp w ∈ jumpSet) : firstRow w = some "j" := by
  have hop : fieldOp w = opJ := List.mem_singleton.1 h
  have hzero : opJ ≠ 0 := by decide
  simp only [firstRow_eq, hop, hzero, false_and, if_false]
  rfl

theorem firstRow_of_op_other (rs rt : Reg) (imm : Int) (hzero : fieldOp w ≠ 0)
    (hjump : fieldOp w ∉ jumpSet) : firstRow w = some (immediateInstr (fieldOp w) rs rt imm).mnemonic := by
  have hop : fieldOp w ≠ opJ := fun h => hjump (List.mem_singleton.2 h)
  simp only [firstRow_eq, hzero, hop, false_and, if_false, immediateInstr, apply_ite Instr.mnemonic,
    apply_ite some]
  rfl

end FirstRow

/-- Settles O13: in each format the first match asks the questions of that format's code table. -/
theorem decoderFollowsOpcodeTable : Obligations.DecoderFollowsOpcodeTable := by
  intro w
  by_cases hzero : fieldOp w = 0
  · exact ⟨_, decode_of_op_eq_zero hzero, firstRow_of_op_eq_zero _ _ _ _ hzero⟩
  by_cases hjump : fieldOp w ∈ jumpSet
  · exact ⟨_, decode_of_op_mem_jumpSet hjump, firstRow_of_op_mem_jumpSet hjump⟩
  · exact ⟨_, decode_of_op_other hzero hjump, firstRow_of_op_other _ _ _ hzero hjump⟩

end Sys2Proof
end

section
/-! The one status of a step (spec/60_exceptions.md R208). -/

namespace Sys2Proof.Machine

/-- Settles O45: the three things a step can do, in the order of its checks. -/
theorem statusPriority : Obligations.StatusPriority := by
  intro s t h
  obtain ⟨hs, rfl⟩ | ⟨hs, hw, rfl⟩ | ⟨hs, w, i, u, hw, -, -, rfl⟩ := step_next h
  · exact ⟨_, rfl, by simp [hs, statusCode]⟩
  · exact ⟨_, rfl, by simp [hs, hw, statusCode]⟩
  · exact ⟨_, rfl, by simp [hs, hw, statusCode]⟩

end Sys2Proof.Machine
end

section
/-! A program without branches and jumps (spec/95_test_vectors.md W9, spec/90_conflicts.md C10): each step
goes on to the next word, and after the last one the pc is out of range. -/

namespace Sys2Proof.Machine

/-- The machine runs, under the policy `nop`, a program without branches and jumps, and stands at its
word `k`. -/
structure StraightLineAt (k : Nat) (s : State) : Prop where
  running : s.halted = false
  policy : s.cfg.unknownPolicy = .nop
  straight : ∀ w ∈ s.cfg.imem, ∀ i, decode w = .instr i → i.isControl = false
  pc : s.pc = s.cfg.base + 4 * k

namespace StraightLineAt
variable {k : Nat} {s : State}

theorem step_ok (h : StraightLineAt k s) (hk : k < s.cfg.imem.length) :
    ∃ t r, step s = .next t ∧ t.result = some r ∧ r.isOk = true ∧ StraightLineAt (k + 1) t ∧
      t.cfg = s.cfg ∧ t.stepCount = s.stepCount + 1 := by
  have hw : fetchWord s = some s.cfg.imem[k] :=
    (fetchWord_of_pc_eq h.pc).trans (List.getElem?_eq_getElem hk)
  obtain ⟨i, hi⟩ := decode_instr s.cfg.imem[k]
  obtain ⟨u, hu⟩ | ⟨-, hrefuse, -⟩ := exec_answers i s
  · have hcfg : u.cfg = s.cfg := exec_cfg hu
    have hpc : u.pc = s.pc + 4 := (exec_pc hu).trans
      (nextPc_of_isControl_false s (h.straight _ (List.getElem_mem hk) i hi))
    refine ⟨reportOk s.pc s.cfg.imem[k] (.instr i) u, _, ?_, rfl, rfl, ⟨?_, ?_, ?_, ?_⟩, hcfg,
      (exec_stepCount hu :)⟩
    · rw [step_of_fetched h.running hw hi, hu, reported]
    · exact (exec_halted hu).trans h.running
    · rw [reportOk_cfg, hcfg, h.policy]
    · rw [reportOk_cfg, hcfg]; exact h.straight
    · rw [reportOk_cfg, reportOk_pc, hcfg, hpc, h.pc]; omega
  · simp [h.policy] at hrefuse

theorem step_end (h : StraightLineAt s.cfg.imem.length s) :
    step s = .next (raiseStatus s (.pcOutOfRange (s.cfg.base + 4 * s.cfg.imem.length))) := by
  rw [← h.pc]
  exact step_of_fetch_none h.running ((fetchWord_of_pc_eq h.pc).trans (List.getElem?_eq_none le_rfl))

theorem run_ends {d n : Nat} (h : StraightLineAt k s) (hd : k + d = s.cfg.imem.length) (hn : d < n) :
    ∃ rs t, run n s = (rs ++ [.pcOutOfRange (s.cfg.base + 4 * s.cfg.imem.length)], .next t) ∧
      rs.length = d ∧ (∀ r ∈ rs, r.isOk = true) ∧ t.halted = true ∧
      t.stepCount = s.stepCount + d := by
  induction d generalizing k s n with
  | zero =>
    obtain ⟨m, rfl⟩ := Nat.exists_eq_succ_of_ne_zero hn.ne'
    rw [Nat.add_zero] at hd
    subst hd
    have hrun := run_succ_of_step m h.running h.step_end rfl
    rw [run_of_halted m (raiseStatus_halted s _)] at hrun
    exact ⟨[], _, hrun, rfl, nofun, rfl, rfl⟩
  | succ d ih =>
    obtain ⟨m, rfl⟩ := Nat.exists_eq_succ_of_ne_zero (Nat.ne_zero_of_lt hn)
    obtain ⟨u, r, hstep, hr, hok, hu, hcfg, hcount⟩ := h.step_ok (by omega)
    obtain ⟨rs, t, hrun, hlen, hoks, hhalted, hcount'⟩ :=
      ih hu (by rw [hcfg]; omega) (Nat.lt_of_succ_lt_succ hn)
    refine ⟨r :: rs, t, ?_, congrArg (· + 1) hlen, List.forall_mem_cons.2 ⟨hok, hoks⟩, hhalted,
      by omega⟩
    rw [run_succ_of_step m h.running hstep hr, hrun, hcfg]
    rfl

end StraightLineAt

/-- Settles O52: a loaded machine stands at word 0, with all `L` words before it. -/
theorem straightLineTerminates : Obligations.StraightLineTerminates := by
  intro p words base s n hload hpolicy hstraight hn
  obtain ⟨-, hs⟩ := load_next hload
  have hstart : StraightLineAt 0 s := by
    subst hs
    exact ⟨rfl, hpolicy, hstraight, (Int.add_zero _).symm⟩
  have hlen : s.cfg.imem.length = words.length := by simp [hs, State.initial]
  have hcount : s.stepCount = 0 := by rw [hs]; rfl
  have hrun := hstart.run_ends (Nat.zero_add _) (hlen ▸ hn)
  rwa [hlen, hcount, Nat.zero_add] at hrun

end Sys2Proof.Machine
end

section
/-! The unknown function code (spec/41_register_format.md R135) by the policy. -/

namespace Sys2Proof.Machine

theorem execUnknownFunct_of_nop {s : State} (h : s.cfg.unknownPolicy = .nop) :
    execUnknownFunct s = commit s none (sequentialPc s.pc) := by
  rw [execUnknownFunct, h]

theorem execUnknownFunct_of_refuse {s : State} (h : s.cfg.unknownPolicy = .refuse) :
    execUnknownFunct s = .refused .unknownFunct := by
  rw [execUnknownFunct, h]

/-- Settles O19: under `nop` the state is committed as it is at the sequential pc. -/
theorem unknownFunctAdvances : Obligations.UnknownFunctAdvances := fun _ _ _ _ _ s h =>
  ⟨_, execUnknownFunct_of_nop h, retires_committed s none (sequentialPc s.pc)⟩

/-- Settles O20: under `refuse` the policy alone decides. -/
theorem unknownFunctRefused : Obligations.UnknownFunctRefused := fun _ _ _ _ _ _ h =>
  execUnknownFunct_of_refuse h

end Sys2Proof.Machine
end

section
/-! The effective address (spec/20_memory.md R53) by `EA_WRAP`. -/

namespace Sys2Proof.Machine

section DataKey
variable {s : State} (rs : Reg) (imm : Int)

theorem State.dataKey_of_exact (h : s.cfg.eaWrap = false) :
    s.dataKey rs imm = (s.readReg rs).toNat + imm := by
  simp [State.dataKey, effectiveAddress, unsignedValue, h]

theorem State.dataKey_of_wrap (h : s.cfg.eaWrap = true) :
    s.dataKey rs imm = ((s.readReg rs).toNat + imm) % 2 ^ 32 := by
  simp [State.dataKey, effectiveAddress, unsignedValue, h]

end DataKey

/-- Settles O22: the exact sum of a 32-bit value and a 16-bit immediate, or a remainder modulo 2^32. -/
theorem effectiveAddressRule : Obligations.EffectiveAddressRule := by
  intro rs imm s
  refine ⟨fun h => ?_, fun h => ?_⟩
  · rw [State.dataKey_of_exact rs imm h]
    refine ⟨rfl, fun himm => ?_⟩
    obtain ⟨hlow, hhigh⟩ := (immInRange_iff imm).1 himm
    have hreg := (s.readReg rs).isLt
    omega
  · rw [State.dataKey_of_wrap rs imm h]
    exact ⟨rfl, Int.emod_nonneg _ (by decide), Int.emod_lt_of_pos _ (by decide)⟩

end Sys2Proof.Machine
end
